-- ==== Sys2Proof/Word.lean ====
section
/-! DEFINITION. The plain widths of the machine: the byte, the 16-bit word, and the fields of an instruction word.

Every value of the machine is unsigned (spec rule R8), so each width is a bit vector with no sign. -/

namespace Sys2Proof

/-- One byte: a general register, a timer, a memory location (R20, R29, R30, R61). -/
abbrev Byte := BitVec 8

/-- A 16-bit word: `PC`, `I`, a return address, an instruction word (R23, R24, R28, R90). -/
abbrev Word := BitVec 16

/-- A 4-bit register number `x` or `y`, selecting `V[0]` to `V[15]` (R91, R92). -/
abbrev RegNum := BitVec 4

/-- A 4-bit key number, `KEY[0]` to `KEY[15]` (R32). -/
abbrev KeyNum := BitVec 4

/-- The 12-bit address field `nnn` (R91). -/
abbrev Addr12 := BitVec 12

/-- A pixel column, 0 to 63 (R31, R133). -/
abbrev Column := BitVec 6

/-- A pixel row, 0 to 31 (R31, R133). -/
abbrev Row := BitVec 5

end Sys2Proof
end

