-- ==== Sys2Proof/Config.lean ====
section
/-! DEFINITION. What is fixed for one machine: the sizes of rule R5, the parameters of rule R6, and the free draw of
rule R130. The default font bytes stand in `Machine/Font.lean`. -/

namespace Sys2Proof.Config

/-- The number of bytes of `Memory` (R5, R61). -/
def memorySize : Nat := 4096

/-- The address the program image is loaded at and the initial `PC` (R5, R62, R293). -/
def programOrigin : Nat := 0x200

/-- The longest program image, `4096 - 512` bytes (R5, R64). -/
def maxImageLength : Nat := 3584

/-- The number of call-stack slots (R5, R28). -/
def stackCapacity : Nat := 16

/-- The parameters the model takes as arguments (R6): the 80 font bytes and whether a decode fault halts. The image
is the argument of `construct`, and `rnd` is the free draw below. -/
structure Params where
  /-- `FONT`: the contents of `Memory[0x000..0x04F]` after construction (R6, R66). -/
  font : Vector Byte 80
  /-- `DECODE_FAULT_HALTS` (R6, R258). -/
  decodeFaultHalts : Bool
  deriving DecidableEq, Repr

/-- The byte `rnd` of the `k`-th draw (R130). It is under no law: the constant has no body, so nothing can be proved of
its values and a claim holds for every sequence of draws. Log entry 1. -/
opaque rnd : Nat → Byte

end Sys2Proof.Config
end

