-- ==== Sys2Proof/Syntax.lean ====
section
/-! DEFINITION. The 34 instructions of the opcode table (rule R95), one constructor a row, in the table's order. Every
operand field has exactly its encoded width (R91), so every term is an instruction of the machine (R94). -/

namespace Sys2Proof

/-- The instruction set. A constructor's docstring gives the pattern and the table's mnemonic. -/
inductive Instr where
  /-- `00E0`, CLS -/
  | cls
  /-- `00EE`, RET -/
  | ret
  /-- `1nnn`, JP -/
  | jp (nnn : Addr12)
  /-- `2nnn`, CALL -/
  | call (nnn : Addr12)
  /-- `3xkk`, SE.I -/
  | seI (x : RegNum) (kk : Byte)
  /-- `4xkk`, SNE.I -/
  | sneI (x : RegNum) (kk : Byte)
  /-- `5xy0`, SE.R -/
  | seR (x y : RegNum)
  /-- `6xkk`, LD.I -/
  | ldI (x : RegNum) (kk : Byte)
  /-- `7xkk`, ADD.I -/
  | addI (x : RegNum) (kk : Byte)
  /-- `8xy0`, LD.R -/
  | ldR (x y : RegNum)
  /-- `8xy1`, OR -/
  | orR (x y : RegNum)
  /-- `8xy2`, AND -/
  | andR (x y : RegNum)
  /-- `8xy3`, XOR -/
  | xorR (x y : RegNum)
  /-- `8xy4`, ADD.R -/
  | addR (x y : RegNum)
  /-- `8xy5`, SUB -/
  | sub (x y : RegNum)
  /-- `8xy6`, SHR: the `y` field is decoded and ignored (R178) -/
  | shr (x y : RegNum)
  /-- `8xy7`, SUBN -/
  | subn (x y : RegNum)
  /-- `8xyE`, SHL: the `y` field is decoded and ignored (R180) -/
  | shl (x y : RegNum)
  /-- `9xy0`, SNE.R -/
  | sneR (x y : RegNum)
  /-- `Annn`, LD.IDX -/
  | ldIdx (nnn : Addr12)
  /-- `Bnnn`, JP.V0 -/
  | jpV0 (nnn : Addr12)
  /-- `Cxkk`, RND -/
  | rnd (x : RegNum) (kk : Byte)
  /-- `Dxyn`, DRW: `n` is the number of sprite rows, 0 to 15 (R92) -/
  | drw (x y : RegNum) (n : BitVec 4)
  /-- `Ex9E`, SKP -/
  | skp (x : RegNum)
  /-- `ExA1`, SKNP -/
  | sknp (x : RegNum)
  /-- `Fx07`, LD.VX.DT -/
  | ldVxDt (x : RegNum)
  /-- `Fx0A`, LD.VX.K -/
  | ldVxK (x : RegNum)
  /-- `Fx15`, LD.DT.VX -/
  | ldDtVx (x : RegNum)
  /-- `Fx18`, LD.ST.VX -/
  | ldStVx (x : RegNum)
  /-- `Fx1E`, ADD.IDX -/
  | addIdx (x : RegNum)
  /-- `Fx29`, LD.F -/
  | ldF (x : RegNum)
  /-- `Fx33`, LD.B -/
  | ldB (x : RegNum)
  /-- `Fx55`, LD.MEM.VX -/
  | ldMemVx (x : RegNum)
  /-- `Fx65`, LD.VX.MEM -/
  | ldVxMem (x : RegNum)
  deriving DecidableEq, Repr

end Sys2Proof
end

