-- ==== Sys2Proof/WellFormed.lean ====
section
/-! DEFINITION. What can be ill formed before anything runs.

A term of `Instr` cannot be: its operands have exactly the widths of the encoding, and "no field value makes an
otherwise matching word illegal" (R94). A word can be (R96) and a program image can be (R64, R292). Both checks are
written from the spec's own lists and use neither the decoder nor the loader. -/

namespace Sys2Proof.WellFormed

/-- The family of a word, its top nibble (R91). -/
def family (w : Word) : Nat := w.toNat / 0x1000

/-- The low nibble of a word (R91). -/
def lowNibble (w : Word) : Nat := w.toNat % 0x10

/-- The low byte of a word (R91). -/
def lowByte (w : Word) : Nat := w.toNat % 0x100

/-- Rule R96's list of the illegal words, family by family. Words of the families it does not name are all legal
(R98). -/
def illegalWord (w : Word) : Bool :=
  (family w == 0x0 && w != 0x00E0 && w != 0x00EE)
  || (family w == 0x5 && lowNibble w != 0)
  || (family w == 0x8 && [0x8, 0x9, 0xA, 0xB, 0xC, 0xD, 0xF].contains (lowNibble w))
  || (family w == 0x9 && lowNibble w != 0)
  || (family w == 0xE && !([0x9E, 0xA1].contains (lowByte w)))
  || (family w == 0xF
      && !([0x07, 0x0A, 0x15, 0x18, 0x1E, 0x29, 0x33, 0x55, 0x65].contains (lowByte w)))

/-- A word that is an instruction. -/
def word (w : Word) : Bool := !illegalWord w

/-- An image that fits above the program origin: at most 3584 bytes (R64). It has no other check. -/
def image (img : List Byte) : Bool := img.length ≤ Config.maxImageLength

end Sys2Proof.WellFormed
end

