-- ==== Sys2Proof/Decode.lean ====
section
/-! DEFINITION. The decoder, total on any bytes and rejecting by name, then the encoder and the opcode table as data.

The decoder follows the procedure of rule R93: the family from the top nibble, then the low nibble or the low byte for
the families that need it. The encoder and the table are written from the patterns of rule R95. -/

namespace Sys2Proof

/-- The field `x = opcode[11:8]` (R91). -/
def fieldX (w : Word) : RegNum := w.extractLsb' 8 4

/-- The field `y = opcode[7:4]` (R91). -/
def fieldY (w : Word) : RegNum := w.extractLsb' 4 4

/-- The field `n = opcode[3:0]` (R91). -/
def fieldN (w : Word) : BitVec 4 := w.extractLsb' 0 4

/-- The field `kk = opcode[7:0]` (R91). -/
def fieldKK (w : Word) : Byte := w.extractLsb' 0 8

/-- The field `nnn = opcode[11:0]` (R91). -/
def fieldNNN (w : Word) : Addr12 := w.extractLsb' 0 12

/-- Family 0 matches on all 16 bits (R93). -/
def decodeFamily0 (w : Word) : Option Instr :=
  if w = 0x00E0#16 then some .cls
  else if w = 0x00EE#16 then some .ret
  else none

/-- Family 8 branches on the low nibble (R93, R95 rows 10 to 18). -/
def decodeFamily8 (x y : RegNum) (n : BitVec 4) : Option Instr :=
  if n = 0x0#4 then some (.ldR x y)
  else if n = 0x1#4 then some (.orR x y)
  else if n = 0x2#4 then some (.andR x y)
  else if n = 0x3#4 then some (.xorR x y)
  else if n = 0x4#4 then some (.addR x y)
  else if n = 0x5#4 then some (.sub x y)
  else if n = 0x6#4 then some (.shr x y)
  else if n = 0x7#4 then some (.subn x y)
  else if n = 0xE#4 then some (.shl x y)
  else none

/-- Family E branches on the low byte (R93, R95 rows 24 and 25). -/
def decodeFamilyE (x : RegNum) (kk : Byte) : Option Instr :=
  if kk = 0x9E#8 then some (.skp x)
  else if kk = 0xA1#8 then some (.sknp x)
  else none

/-- Family F branches on the low byte (R93, R95 rows 26 to 34). -/
def decodeFamilyF (x : RegNum) (kk : Byte) : Option Instr :=
  if kk = 0x07#8 then some (.ldVxDt x)
  else if kk = 0x0A#8 then some (.ldVxK x)
  else if kk = 0x15#8 then some (.ldDtVx x)
  else if kk = 0x18#8 then some (.ldStVx x)
  else if kk = 0x1E#8 then some (.addIdx x)
  else if kk = 0x29#8 then some (.ldF x)
  else if kk = 0x33#8 then some (.ldB x)
  else if kk = 0x55#8 then some (.ldMemVx x)
  else if kk = 0x65#8 then some (.ldVxMem x)
  else none

/-- The instruction a 16-bit word is, or `none` for an illegal word (R93, R96). Decoding reads nothing but the word
(R126). Families 5 and 9 fix the low nibble to 0 (`90_conflicts.md` C11). -/
def decodeWord (w : Word) : Option Instr :=
  let f := w.extractLsb' 12 4
  if f = 0x0#4 then decodeFamily0 w
  else if f = 0x1#4 then some (.jp (fieldNNN w))
  else if f = 0x2#4 then some (.call (fieldNNN w))
  else if f = 0x3#4 then some (.seI (fieldX w) (fieldKK w))
  else if f = 0x4#4 then some (.sneI (fieldX w) (fieldKK w))
  else if f = 0x5#4 then (if fieldN w = 0x0#4 then some (.seR (fieldX w) (fieldY w)) else none)
  else if f = 0x6#4 then some (.ldI (fieldX w) (fieldKK w))
  else if f = 0x7#4 then some (.addI (fieldX w) (fieldKK w))
  else if f = 0x8#4 then decodeFamily8 (fieldX w) (fieldY w) (fieldN w)
  else if f = 0x9#4 then (if fieldN w = 0x0#4 then some (.sneR (fieldX w) (fieldY w)) else none)
  else if f = 0xA#4 then some (.ldIdx (fieldNNN w))
  else if f = 0xB#4 then some (.jpV0 (fieldNNN w))
  else if f = 0xC#4 then some (.rnd (fieldX w) (fieldKK w))
  else if f = 0xD#4 then some (.drw (fieldX w) (fieldY w) (fieldN w))
  else if f = 0xE#4 then decodeFamilyE (fieldX w) (fieldKK w)
  else decodeFamilyF (fieldX w) (fieldKK w)

/-- Why bytes are no instruction. -/
inductive DecodeError where
  /-- Fewer than two bytes: every instruction is exactly two bytes (R90). -/
  | truncated
  /-- The word matches no row of the opcode table (R96). -/
  | illegal (w : Word)
  deriving DecidableEq, Repr

/-- The word whose first, high byte is `hi` (R67, R90). -/
def joinBytes (hi lo : Byte) : Word := hi ++ lo

/-- The bytes of a word in the order they stand in memory, high byte first (R67, R90). -/
def wordBytes (w : Word) : List Byte := [w.extractLsb' 8 8, w.extractLsb' 0 8]

/-- Decode the instruction at the head of a byte list and give the rest of the list. -/
def decode (bytes : List Byte) : Except DecodeError (Instr × List Byte) :=
  match bytes with
  | hi :: lo :: rest =>
    match decodeWord (joinBytes hi lo) with
    | some i => .ok (i, rest)
    | none => .error (.illegal (joinBytes hi lo))
  | _ => .error .truncated

/-- The word the opcode table means by `nbits` bits of value `w`: bits above `nbits` are 0, and an instruction is one
16-bit word (R90). -/
def tableWord (nbits w : Nat) : Word := BitVec.ofNat 16 (w % 2 ^ nbits)

/-- The decoder's answer on a word numbered as the opcode table numbers it. -/
def decodeTableWord (nbits w : Nat) : Option Instr :=
  match decode (wordBytes (tableWord nbits w)) with
  | .ok (i, _) => some i
  | .error _ => none

/-! ## The encoder -/

/-- Formats `F_NNN`: family nibble, then `nnn` (R91). -/
def encodeNNN (f : BitVec 4) (nnn : Addr12) : Word := f ++ nnn

/-- Format `F_XKK`: family nibble, `x`, `kk` (R91). -/
def encodeXKK (f : BitVec 4) (x : RegNum) (kk : Byte) : Word := (f ++ x) ++ kk

/-- Formats `F_XY` and `F_XYN`: family nibble, `x`, `y`, low nibble (R91). -/
def encodeXYN (f : BitVec 4) (x y : RegNum) (n : BitVec 4) : Word := (f ++ x) ++ (y ++ n)

/-- The word of an instruction (R95). -/
def encodeWord : Instr → Word
  | .cls => 0x00E0#16
  | .ret => 0x00EE#16
  | .jp nnn => encodeNNN 0x1#4 nnn
  | .call nnn => encodeNNN 0x2#4 nnn
  | .seI x kk => encodeXKK 0x3#4 x kk
  | .sneI x kk => encodeXKK 0x4#4 x kk
  | .seR x y => encodeXYN 0x5#4 x y 0x0#4
  | .ldI x kk => encodeXKK 0x6#4 x kk
  | .addI x kk => encodeXKK 0x7#4 x kk
  | .ldR x y => encodeXYN 0x8#4 x y 0x0#4
  | .orR x y => encodeXYN 0x8#4 x y 0x1#4
  | .andR x y => encodeXYN 0x8#4 x y 0x2#4
  | .xorR x y => encodeXYN 0x8#4 x y 0x3#4
  | .addR x y => encodeXYN 0x8#4 x y 0x4#4
  | .sub x y => encodeXYN 0x8#4 x y 0x5#4
  | .shr x y => encodeXYN 0x8#4 x y 0x6#4
  | .subn x y => encodeXYN 0x8#4 x y 0x7#4
  | .shl x y => encodeXYN 0x8#4 x y 0xE#4
  | .sneR x y => encodeXYN 0x9#4 x y 0x0#4
  | .ldIdx nnn => encodeNNN 0xA#4 nnn
  | .jpV0 nnn => encodeNNN 0xB#4 nnn
  | .rnd x kk => encodeXKK 0xC#4 x kk
  | .drw x y n => encodeXYN 0xD#4 x y n
  | .skp x => encodeXKK 0xE#4 x 0x9E#8
  | .sknp x => encodeXKK 0xE#4 x 0xA1#8
  | .ldVxDt x => encodeXKK 0xF#4 x 0x07#8
  | .ldVxK x => encodeXKK 0xF#4 x 0x0A#8
  | .ldDtVx x => encodeXKK 0xF#4 x 0x15#8
  | .ldStVx x => encodeXKK 0xF#4 x 0x18#8
  | .addIdx x => encodeXKK 0xF#4 x 0x1E#8
  | .ldF x => encodeXKK 0xF#4 x 0x29#8
  | .ldB x => encodeXKK 0xF#4 x 0x33#8
  | .ldMemVx x => encodeXKK 0xF#4 x 0x55#8
  | .ldVxMem x => encodeXKK 0xF#4 x 0x65#8

/-- The bytes of an instruction, high byte first (R90). -/
def encode (i : Instr) : List Byte := wordBytes (encodeWord i)

/-! ## The opcode table as data -/

/-- The `match` and `mask` columns of a row of rule R95. -/
structure OpcodeRow where
  mnemonic : String
  bits : Word
  mask : Word
  deriving DecidableEq, Repr

/-- Does a word match a row: `(opcode & mask) == match` (R93). -/
def OpcodeRow.accepts (r : OpcodeRow) (w : Word) : Bool := w &&& r.mask == r.bits

/-- The row of rule R95 an instruction stands for. -/
def opcodeRow : Instr → OpcodeRow
  | .cls => ⟨"CLS", 0x00E0#16, 0xFFFF#16⟩
  | .ret => ⟨"RET", 0x00EE#16, 0xFFFF#16⟩
  | .jp _ => ⟨"JP", 0x1000#16, 0xF000#16⟩
  | .call _ => ⟨"CALL", 0x2000#16, 0xF000#16⟩
  | .seI _ _ => ⟨"SE.I", 0x3000#16, 0xF000#16⟩
  | .sneI _ _ => ⟨"SNE.I", 0x4000#16, 0xF000#16⟩
  | .seR _ _ => ⟨"SE.R", 0x5000#16, 0xF00F#16⟩
  | .ldI _ _ => ⟨"LD.I", 0x6000#16, 0xF000#16⟩
  | .addI _ _ => ⟨"ADD.I", 0x7000#16, 0xF000#16⟩
  | .ldR _ _ => ⟨"LD.R", 0x8000#16, 0xF00F#16⟩
  | .orR _ _ => ⟨"OR", 0x8001#16, 0xF00F#16⟩
  | .andR _ _ => ⟨"AND", 0x8002#16, 0xF00F#16⟩
  | .xorR _ _ => ⟨"XOR", 0x8003#16, 0xF00F#16⟩
  | .addR _ _ => ⟨"ADD.R", 0x8004#16, 0xF00F#16⟩
  | .sub _ _ => ⟨"SUB", 0x8005#16, 0xF00F#16⟩
  | .shr _ _ => ⟨"SHR", 0x8006#16, 0xF00F#16⟩
  | .subn _ _ => ⟨"SUBN", 0x8007#16, 0xF00F#16⟩
  | .shl _ _ => ⟨"SHL", 0x800E#16, 0xF00F#16⟩
  | .sneR _ _ => ⟨"SNE.R", 0x9000#16, 0xF00F#16⟩
  | .ldIdx _ => ⟨"LD.IDX", 0xA000#16, 0xF000#16⟩
  | .jpV0 _ => ⟨"JP.V0", 0xB000#16, 0xF000#16⟩
  | .rnd _ _ => ⟨"RND", 0xC000#16, 0xF000#16⟩
  | .drw _ _ _ => ⟨"DRW", 0xD000#16, 0xF000#16⟩
  | .skp _ => ⟨"SKP", 0xE09E#16, 0xF0FF#16⟩
  | .sknp _ => ⟨"SKNP", 0xE0A1#16, 0xF0FF#16⟩
  | .ldVxDt _ => ⟨"LD.VX.DT", 0xF007#16, 0xF0FF#16⟩
  | .ldVxK _ => ⟨"LD.VX.K", 0xF00A#16, 0xF0FF#16⟩
  | .ldDtVx _ => ⟨"LD.DT.VX", 0xF015#16, 0xF0FF#16⟩
  | .ldStVx _ => ⟨"LD.ST.VX", 0xF018#16, 0xF0FF#16⟩
  | .addIdx _ => ⟨"ADD.IDX", 0xF01E#16, 0xF0FF#16⟩
  | .ldF _ => ⟨"LD.F", 0xF029#16, 0xF0FF#16⟩
  | .ldB _ => ⟨"LD.B", 0xF033#16, 0xF0FF#16⟩
  | .ldMemVx _ => ⟨"LD.MEM.VX", 0xF055#16, 0xF0FF#16⟩
  | .ldVxMem _ => ⟨"LD.VX.MEM", 0xF065#16, 0xF0FF#16⟩

/-- The 34 rows in the table's order, each reached through one instruction of the row. -/
def opcodeTable : List OpcodeRow :=
  ([.cls, .ret, .jp 0, .call 0, .seI 0 0, .sneI 0 0, .seR 0 0, .ldI 0 0, .addI 0 0] : List Instr).map opcodeRow
  ++ ([.ldR 0 0, .orR 0 0, .andR 0 0, .xorR 0 0, .addR 0 0, .sub 0 0, .shr 0 0, .subn 0 0,
      .shl 0 0, .sneR 0 0] : List Instr).map opcodeRow
  ++ ([.ldIdx 0, .jpV0 0, .rnd 0 0, .drw 0 0 0, .skp 0, .sknp 0, .ldVxDt 0, .ldVxK 0] : List Instr).map opcodeRow
  ++ ([.ldDtVx 0, .ldStVx 0, .addIdx 0, .ldF 0, .ldB 0, .ldMemVx 0, .ldVxMem 0] : List Instr).map opcodeRow

end Sys2Proof
end

