-- ==== Sys2Proof/Machine/Font.lean ====
section
/-! DEFINITION. The default font of rule R66 and the spec's default parameters (rule R6). -/

namespace Sys2Proof.Machine

/-- The default `FONT`, five bytes a digit, digits 0 to 7 (R66). PRESUMED: the spec takes the bytes from general
knowledge (log entry 2). -/
def fontLow : List Byte :=
  [0xF0, 0x90, 0x90, 0x90, 0xF0] ++ [0x20, 0x60, 0x20, 0x20, 0x70]
  ++ [0xF0, 0x10, 0xF0, 0x80, 0xF0] ++ [0xF0, 0x10, 0xF0, 0x10, 0xF0]
  ++ [0x90, 0x90, 0xF0, 0x10, 0x10] ++ [0xF0, 0x80, 0xF0, 0x10, 0xF0]
  ++ [0xF0, 0x80, 0xF0, 0x90, 0xF0] ++ [0xF0, 0x10, 0x20, 0x40, 0x40]

/-- The default `FONT`, digits 8 to F (R66). -/
def fontHigh : List Byte :=
  [0xF0, 0x90, 0xF0, 0x90, 0xF0] ++ [0xF0, 0x90, 0xF0, 0x10, 0xF0]
  ++ [0xF0, 0x90, 0xF0, 0x90, 0x90] ++ [0xE0, 0x90, 0xE0, 0x90, 0xE0]
  ++ [0xF0, 0x80, 0x80, 0x80, 0xF0] ++ [0xE0, 0x90, 0x90, 0x90, 0xE0]
  ++ [0xF0, 0x80, 0xF0, 0x80, 0xF0] ++ [0xF0, 0x80, 0xF0, 0x80, 0x80]

/-- The 80 bytes of the default `FONT` (R66). -/
def fontBytes : List Byte := fontLow ++ fontHigh

/-- The spec's default parameters: the default font, and a decode fault halts (R6, R258). -/
def defaultParams : Config.Params where
  font := ⟨fontBytes.toArray, by decide⟩
  decodeFaultHalts := true

end Sys2Proof.Machine
end

