-- ==== Sys2Proof/Machine/State.lean ====
section
/-! DEFINITION. The state of the machine (rule R38's table), the reasons a step can stop, and the state after reset. -/

namespace Sys2Proof.Machine

/-- `Memory` as the bytes that differ from the reset contents, addresses strictly rising (`Memory.wf` in `Ops.lean`).
What an unlisted address reads as is `Memory.initial` (R62). -/
abbrev Memory := List Host.Cell

/-- The frame buffer: 32 rows of 64 one-bit pixels, bit `c` of row `r` being the pixel in column `c` (R31). -/
abbrev FrameBuffer := Vector (BitVec 64) 32

/-- Everything the spec gives the machine (R38), and one field of the model's own (`draws`). -/
structure State where
  /-- `V[0]` to `V[15]`, of which `V[0xF]` is also the flag (R20, R22). -/
  v : Vector Byte 16
  /-- The address register `I`, all 16 bits kept (R23). -/
  i : Word
  /-- The program counter `PC` (R24). -/
  pc : Word
  /-- `SP`, the call depth, a 5-bit counter (R27). -/
  sp : BitVec 5
  /-- `STACK[0]` to `STACK[15]`, its own storage (R28, R60). -/
  stack : Vector Word 16
  /-- The delay timer `DT` (R29). -/
  dt : Byte
  /-- The sound timer `ST` (R30). -/
  st : Byte
  /-- The frame buffer `FB[y][x]` (R31). -/
  fb : FrameBuffer
  /-- The key state: bit `k` is `KEY[k]`, 1 = pressed (R32). -/
  key : BitVec 16
  /-- `Memory`, 4096 bytes (R33, R61). -/
  mem : Memory
  /-- `HALTED` (R34). -/
  halted : Bool
  /-- `FCODE`, the code of the latest fault, 0 = none yet (R35). -/
  fcode : BitVec 3
  /-- `FOPC`, the opcode of the faulting instruction (R35). -/
  fopc : Word
  /-- `FPC`, the fetch address of the faulting instruction (R35). -/
  fpc : Word
  /-- `KW_VALID`, the key-wait latch is armed (R36). -/
  kwValid : Bool
  /-- `KW_PREV`, the key sample of the wait (R36). -/
  kwPrev : BitVec 16
  /-- MODEL's own: how many random bytes have been drawn; `Config.rnd draws` is the next one (R130, log entry 1). -/
  draws : Nat
  deriving DecidableEq, Repr

/-- The kinds of fault the spec describes (R250). Taking one is a next state, not a stop: it writes the fault record
and may set `HALTED` (`takeFault` in `Ops.lean`). -/
inductive FaultKind where
  /-- The word matches no pattern (R251). -/
  | decodeFault
  /-- A call at full stack (R252). -/
  | stackOverflow
  /-- A return with empty stack (R253). -/
  | stackUnderflow
  /-- `PC` beyond memory (R254). -/
  | outOfBoundsFetch
  /-- A data access above `0xFFF` (R255). -/
  | outOfBoundsAccess
  /-- An image longer than 3584 bytes (R260). -/
  | capacityError
  deriving DecidableEq, Repr

/-- Why the model stops without a next state. -/
inductive Fault where
  /-- Raised by `CALL` and `RET` in a state whose `SP` names a slot that does not exist: `SP` is 17 to 31, values the
  spec says are never reached (R27). Safe: no run from reset reaches such a state. -/
  | noStackSlot
  deriving DecidableEq, Repr

/-- Why the model gives an instruction no meaning. -/
inductive Refusal where
  /-- Raised by an arm of `exec` for an instruction without a meaning; no arm does so now. Safe. -/
  | notModelled (mnemonic : String)
  deriving DecidableEq, Repr

/-- The launch state of an empty image with the default font (R38, R291): the one reset there is (R290). Memory lists
nothing, because an unlisted address reads as its reset contents. The zeros of `V`, `I`, `STACK`, `DT`, `ST`, `FB` and
`KEY` are the spec's own decision D3 (log entry 3); `draws` is the model's (log entry 1). -/
def State.reset : State where
  v := Vector.replicate 16 0#8
  i := 0x0000#16
  pc := 0x0200#16
  sp := 0#5
  stack := Vector.replicate 16 0#16
  dt := 0x00#8
  st := 0x00#8
  fb := Vector.replicate 32 0#64
  key := 0#16
  mem := []
  halted := false
  fcode := 0#3
  fopc := 0x0000#16
  fpc := 0x0000#16
  kwValid := false
  kwPrev := 0x0000#16
  draws := 0

end Sys2Proof.Machine
end

