-- ==== Sys2Proof/Machine/Ops.lean ====
section
/-! DEFINITION. The named operations the meanings share: memory bytes and their bounds, the call stack, the program
counter, the frame buffer, the keys, and taking a fault. The machine has no handler and no return from a fault (R263),
so there is no operation for one. -/

namespace Sys2Proof.Machine

/-! ## Memory -/

/-- What an unlisted address reads as: the reset contents, the default font in `[0x000, 0x050)` and zero above it
(R62). -/
def Memory.initial (a : Nat) : Byte := fontBytes.getD a 0x00#8

/-- The canonical form: addresses strictly rising and inside `[0x000, 0xFFF]` (R61), and no entry equal to what an
unlisted address reads as. -/
abbrev Memory.wf (m : Memory) : Prop :=
  m.Pairwise (fun c d => c.1 < d.1) ∧ ∀ c ∈ m, c.1 < Config.memorySize ∧ c.2 ≠ Memory.initial c.1

/-- `MemRead(addr, 1)` (R10): the listed byte, or the reset contents. The instruction rules check the bound first. -/
def Memory.read (m : Memory) (a : Nat) : Byte :=
  match m with
  | [] => Memory.initial a
  | c :: rest => if c.1 = a then c.2 else Memory.read rest a

/-- Put one entry in front, unless it says what an unlisted address reads as. -/
def Memory.cons (a : Nat) (b : Byte) (m : Memory) : Memory :=
  if b = Memory.initial a then m else (a, b) :: m

/-- `MemWrite(addr, 1, v)` (R10), keeping the canonical form. The instruction rules check the bound first. -/
def Memory.write (m : Memory) (a : Nat) (b : Byte) : Memory :=
  match m with
  | [] => Memory.cons a b []
  | c :: rest =>
    if a < c.1 then Memory.cons a b (c :: rest)
    else if a = c.1 then Memory.cons a b rest
    else c :: Memory.write rest a b

/-- Store bytes at ascending addresses from `a` (R67, R69). -/
def Memory.writeBytes (m : Memory) (a : Nat) (bytes : List Byte) : Memory :=
  match bytes with
  | [] => m
  | b :: rest => Memory.writeBytes (Memory.write m a b) (a + 1) rest

/-- The `count` bytes at ascending addresses from `a` (R67, R69). -/
def Memory.readBytes (m : Memory) (a count : Nat) : List Byte :=
  match count with
  | 0 => []
  | n + 1 => Memory.read m a :: Memory.readBytes m (a + 1) n

/-- `CheckData(base, count)` passes (R70): no byte of the range lies above `0xFFF`. The sum is in unbounded integers,
and a range of no bytes always passes. -/
def dataInBounds (base : Word) (count : Nat) : Bool :=
  !(decide (count > 0) && decide (base.toNat + count - 1 > 0xFFF))

/-! ## Program counter -/

/-- `PC` moved past the fetched word (R125). The addition is mod 2^16, which no reachable state meets (R26). -/
def advance (s : State) : State := { s with pc := s.pc + 2#16 }

/-- `PCf`, the fetch address, as a meaning sees it: it runs with `PC = PCf + 2` in place (R125). -/
def fetchAddress (s : State) : Word := s.pc - 2#16

/-- Control transfer `PC <- target` (R10). -/
def jumpTo (target : Word) (s : State) : State := { s with pc := target }

/-- A skip adds 2 to the advanced `PC` when the condition holds (R125, R154). -/
def skipIf (condition : Bool) (s : State) : State :=
  if condition then { s with pc := s.pc + 2#16 } else s

/-! ## Call stack -/

/-- `STACK[SP] <- PC; SP <- SP + 1` (R28, R152), or nothing when there is no such slot. -/
def pushReturn (s : State) : Option State :=
  if h : s.sp.toNat < 16 then
    some { s with stack := s.stack.set s.sp.toNat s.pc h, sp := s.sp + 1#5 }
  else none

/-- `SP <- SP - 1; PC <- STACK[SP]` (R28, R150), or nothing when there is no such slot. The slot keeps its contents. -/
def popReturn (s : State) : Option State :=
  if h : (s.sp - 1#5).toNat < 16 then
    some { s with sp := s.sp - 1#5, pc := s.stack[(s.sp - 1#5).toNat] }
  else none

/-! ## Frame buffer -/

/-- The pixel `FB[y][x]` (R133). -/
def pixel (fb : FrameBuffer) (x : Column) (y : Row) : Bool :=
  (fb[y.toNat]'y.isLt).getLsbD x.toNat

/-- `FB[y][x] <- FB[y][x] XOR 1` (R221). -/
def togglePixel (fb : FrameBuffer) (x : Column) (y : Row) : FrameBuffer :=
  fb.set y.toNat ((fb[y.toNat]'y.isLt) ^^^ (1#64 <<< x.toNat)) y.isLt

/-- All pixels off (R220). -/
def clearBuffer : FrameBuffer := Vector.replicate 32 0#64

/-- A drawing in progress: the buffer, and whether a pixel has gone from on to off (R221). -/
structure Drawing where
  fb : FrameBuffer
  collision : Bool
  deriving DecidableEq, Repr

/-- One sprite bit that is 1, landing on a pixel: note the collision, then toggle (R221). -/
def drawPixel (d : Drawing) (x : Column) (y : Row) : Drawing :=
  { fb := togglePixel d.fb x y, collision := d.collision || pixel d.fb x y }

/-- The column `(x0 + col) mod 64` (R221). -/
def wrapColumn (x0 : Byte) (col : Nat) : Column := BitVec.ofNat 6 (x0.toNat + col)

/-- The row `(y0 + row) mod 32` (R221, `90_conflicts.md` C4). -/
def wrapRow (y0 : Byte) (row : Nat) : Row := BitVec.ofNat 5 (y0.toNat + row)

/-- The sprite bit in column `col` of a row: bit 7 is the leftmost pixel (R222). PRESUMED by the spec (log entry 4). -/
def spriteBit (bits : Byte) (col : Nat) : Bool := bits.getLsbD (7 - col)

/-- Draw the columns `cols` of one sprite row (R221). -/
def drawColumns (x0 : Byte) (y : Row) (bits : Byte) (cols : List Nat) (d : Drawing) : Drawing :=
  match cols with
  | [] => d
  | col :: rest =>
    drawColumns x0 y bits rest (if spriteBit bits col then drawPixel d (wrapColumn x0 col) y else d)

/-- The columns of a sprite row in drawing order (R221). -/
def spriteColumns : List Nat := [0, 1, 2, 3, 4, 5, 6, 7]

/-- Draw sprite rows from row number `row` on, one byte a row (R221). -/
def drawRows (x0 y0 : Byte) (row : Nat) (sprite : List Byte) (d : Drawing) : Drawing :=
  match sprite with
  | [] => d
  | bits :: rest =>
    drawRows x0 y0 (row + 1) rest (drawColumns x0 (wrapRow y0 row) bits spriteColumns d)

/-- Draw a sprite by XOR with its top left corner at `(x0, y0)` (R221). -/
def drawSprite (x0 y0 : Byte) (sprite : List Byte) (fb : FrameBuffer) : Drawing :=
  drawRows x0 y0 0 sprite { fb := fb, collision := false }

/-! ## Keys -/

/-- `KEY[k]` as a level (R32). -/
def keyDown (s : State) (k : KeyNum) : Bool := s.key.getLsbD k.toNat

/-- The least `k` in 0..15 with bit `k` set (R232). -/
def leastKey (newly : BitVec 16) : Option KeyNum :=
  ([0, 1, 2, 3, 4, 5, 6, 7, 8, 9, 10, 11, 12, 13, 14, 15] : List KeyNum).find? (fun k => newly.getLsbD k.toNat)

/-! ## Taking a fault -/

/-- The numeric code of a fault (R250). -/
def FaultKind.code : FaultKind → BitVec 3
  | .decodeFault => 1#3
  | .stackOverflow => 2#3
  | .stackUnderflow => 3#3
  | .outOfBoundsFetch => 4#3
  | .outOfBoundsAccess => 5#3
  | .capacityError => 6#3

/-- Does a fault set `HALTED`: the fatal ones do (R257), a decode fault by the parameter (R258). -/
def FaultKind.halts (p : Config.Params) : FaultKind → Bool
  | .decodeFault => p.decodeFaultHalts
  | .stackOverflow => true
  | .stackUnderflow => true
  | .outOfBoundsFetch => true
  | .outOfBoundsAccess => true
  | .capacityError => true

/-- `Fault(F, opc, pcf)` (R256): the fault record is written, `HALTED` is set when the fault halts, and nothing else
changes. `PC` is where the caller left it (R259). -/
def takeFault (p : Config.Params) (f : FaultKind) (opc pcf : Word) (s : State) : State :=
  { s with fcode := f.code, fopc := opc, fpc := pcf, halted := s.halted || f.halts p }

/-- An instruction ends in a fault (R123, R127): the recorded opcode is the instruction's own word and the recorded
address its fetch address. No instruction raises a decode fault, so the parameters play no part. DEDUCED: the word is
`encodeWord i`, which is the fetched word (log entry 5). -/
def faultIn (f : FaultKind) (i : Instr) (s : State) : Host.Outcome State Fault Refusal :=
  .next (takeFault defaultParams f (encodeWord i) (fetchAddress s) s)

/-- Go on with a state, or stop where the stack has no such slot (R27). -/
def orNoSlot (s : Option State) : Host.Outcome State Fault Refusal :=
  match s with
  | some t => .next t
  | none => .fault .noStackSlot

end Sys2Proof.Machine
end

