-- ==== Sys2Proof/Machine/Operands.lean ====
section
/-! DEFINITION. The operand forms of rule R92: register direct, immediate, implied register, and memory at `I + k`. -/

namespace Sys2Proof.Machine

/-- Read `V[x]` (R10, R20). -/
def readReg (s : State) (x : RegNum) : Byte := s.v[x.toNat]'x.isLt

/-- Write `V[x]` (R10, R20). There is no hardwired register. -/
def writeReg (x : RegNum) (b : Byte) (s : State) : State := { s with v := s.v.set x.toNat b x.isLt }

/-- An address field widened with zeros (R92). -/
def wideAddr (nnn : Addr12) : Word := nnn.setWidth 16

/-- A byte widened to 16 bits with zeros (R10, R153, R201). -/
def wideByte (b : Byte) : Word := b.setWidth 16

/-- The low nibble of a register value, as a key number or a digit (R202, R230). -/
def lowNibble (b : Byte) : BitVec 4 := b.extractLsb' 0 4

/-- The address of the glyph of a digit, `5 * d` (R63, R202). -/
def glyphAddress (d : BitVec 4) : Word := 5#16 * d.setWidth 16

/-- Write the index register (R23). -/
def writeIndex (a : Word) (s : State) : State := { s with i := a }

/-- The register list `V[0]` to `V[x]` in rising order (R204). -/
def regsUpTo (s : State) (x : RegNum) : List Byte := s.v.toList.take (x.toNat + 1)

/-- Load bytes into `V[k]`, `V[k+1]` and so on (R205). A list that runs past `V[15]` does not occur: the caller gives
`x + 1` bytes from `k = 0`. -/
def loadRegs (v : Vector Byte 16) (k : Nat) (bytes : List Byte) : Vector Byte 16 :=
  match bytes with
  | [] => v
  | b :: rest => loadRegs (v.setIfInBounds k b) (k + 1) rest

/-- Store bytes at `I`, `I + 1` and so on (R206); `I` is unchanged. -/
def storeAtIndex (bytes : List Byte) (s : State) : State :=
  { s with mem := Memory.writeBytes s.mem s.i.toNat bytes }

/-- The `count` bytes at `I`, `I + 1` and so on (R206). -/
def bytesAtIndex (s : State) (count : Nat) : List Byte := Memory.readBytes s.mem s.i.toNat count

/-- The decimal digits of a byte: hundreds, tens, units (R203). -/
def decimalDigits (b : Byte) : List Byte := [b / 100#8, b / 10#8 % 10#8, b % 10#8]

end Sys2Proof.Machine
end

