-- ==== Sys2Proof/Machine/Flags.lean ====
section
/-! DEFINITION. The flag computations. The only flag is `V[0xF]` (R22); each rule stores 0 or 1 in it. -/

namespace Sys2Proof.Machine

/-- The number of the flag register. -/
def flagReg : RegNum := 0xF#4

/-- A flag value as a byte (R22). -/
def flagByte (f : Bool) : Byte := if f then 0x01#8 else 0x00#8

/-- Write the flag register (R22). -/
def writeFlag (f : Bool) (s : State) : State := writeReg flagReg (flagByte f) s

/-- The 9-bit sum of two bytes (R176). -/
def wideSum (a b : Byte) : BitVec 9 := a.setWidth 9 + b.setWidth 9

/-- The carry of an addition, bit 8 of the sum (R176). -/
def carry (a b : Byte) : Bool := (wideSum a b).getLsbD 8

/-- No borrow in `a - b`: the minuend is at least the subtrahend (R177, R182). -/
def noBorrow (a b : Byte) : Bool := decide (a.toNat ≥ b.toNat)

/-- The bit a right shift moves out (R178). -/
def shiftedOutLow (a : Byte) : Bool := a.getLsbD 0

/-- The bit a left shift moves out (R180). -/
def shiftedOutHigh (a : Byte) : Bool := a.getLsbD 7

end Sys2Proof.Machine
end

