-- ==== Sys2Proof/Machine/Alu.lean ====
section
/-! DEFINITION. Register load and ALU (rules R170 to R181). The writes of a rule happen in the order of the document's
row, and each sees those before it (R11, R185). -/

namespace Sys2Proof.Machine

/-- `6xkk` (R170). -/
def execLdI (x : RegNum) (kk : Byte) (s : State) : Host.Outcome State Fault Refusal :=
  .next (writeReg x kk s)

/-- `7xkk` (R171): no flag. -/
def execAddI (x : RegNum) (kk : Byte) (s : State) : Host.Outcome State Fault Refusal :=
  .next (writeReg x (readReg s x + kk) s)

/-- `8xy0` (R172). -/
def execLdR (x y : RegNum) (s : State) : Host.Outcome State Fault Refusal :=
  .next (writeReg x (readReg s y) s)

/-- `8xy1` (R173): `V[0xF]` is not written. -/
def execOr (x y : RegNum) (s : State) : Host.Outcome State Fault Refusal :=
  .next (writeReg x (readReg s x ||| readReg s y) s)

/-- `8xy2` (R174). -/
def execAnd (x y : RegNum) (s : State) : Host.Outcome State Fault Refusal :=
  .next (writeReg x (readReg s x &&& readReg s y) s)

/-- `8xy3` (R175). -/
def execXor (x y : RegNum) (s : State) : Host.Outcome State Fault Refusal :=
  .next (writeReg x (readReg s x ^^^ readReg s y) s)

/-- `8xy4` (R176): the flag is written after `V[x]`. -/
def execAddR (x y : RegNum) (s : State) : Host.Outcome State Fault Refusal :=
  let a := readReg s x
  let b := readReg s y
  .next (writeFlag (carry a b) (writeReg x ((wideSum a b).extractLsb' 0 8) s))

/-- `8xy5` (R177): the flag is written after `V[x]`. -/
def execSub (x y : RegNum) (s : State) : Host.Outcome State Fault Refusal :=
  let a := readReg s x
  let b := readReg s y
  .next (writeFlag (noBorrow a b) (writeReg x (a - b) s))

/-- `8xy6` (R178): the flag is written first and the shift reads `V[x]` after it; `V[y]` is not read. -/
def execShr (x _y : RegNum) (s : State) : Host.Outcome State Fault Refusal :=
  let t := writeFlag (shiftedOutLow (readReg s x)) s
  .next (writeReg x (readReg t x >>> 1) t)

/-- `8xy7` (R179): the flag is written after `V[x]`. -/
def execSubn (x y : RegNum) (s : State) : Host.Outcome State Fault Refusal :=
  let a := readReg s x
  let b := readReg s y
  .next (writeFlag (noBorrow b a) (writeReg x (b - a) s))

/-- `8xyE` (R180): the flag is written first and the shift reads `V[x]` after it; `V[y]` is not read. -/
def execShl (x _y : RegNum) (s : State) : Host.Outcome State Fault Refusal :=
  let t := writeFlag (shiftedOutHigh (readReg s x)) s
  .next (writeReg x (readReg t x <<< 1) t)

/-- `Cxkk` (R181): the draw of this `Step` masked by `kk`. The byte is the free value `Config.rnd` at the draw number
that stands in the state (R130, log entry 1). -/
def execRnd (x : RegNum) (kk : Byte) (s : State) : Host.Outcome State Fault Refusal :=
  .next { writeReg x (Config.rnd s.draws &&& kk) s with draws := s.draws + 1 }

end Sys2Proof.Machine
end

