-- ==== Sys2Proof/Machine/Display.lean ====
section
/-! DEFINITION. The frame-buffer instructions (rules R220 and R221). -/

namespace Sys2Proof.Machine

/-- `00E0` (R220). -/
def execCls (s : State) : Host.Outcome State Fault Refusal :=
  .next { s with fb := clearBuffer }

/-- `Dxyn` (R221): the coordinates are read before `V[0xF]` is written, and `V[0xF]` is always written. -/
def execDrw (x y : RegNum) (n : BitVec 4) (s : State) : Host.Outcome State Fault Refusal :=
  if dataInBounds s.i n.toNat then
    let d := drawSprite (readReg s x) (readReg s y) (bytesAtIndex s n.toNat) s.fb
    .next (writeFlag d.collision { s with fb := d.fb })
  else faultIn .outOfBoundsAccess (.drw x y n) s

end Sys2Proof.Machine
end

