-- ==== Sys2Proof/Machine/Flow.lean ====
section
/-! DEFINITION. Control transfer (rules R150 to R157). Every meaning runs with `PC = PCf + 2` in place (R125). -/

namespace Sys2Proof.Machine

/-- `00EE` (R150). -/
def execRet (s : State) : Host.Outcome State Fault Refusal :=
  if s.sp = 0#5 then faultIn .stackUnderflow .ret s else orNoSlot (popReturn s)

/-- `1nnn` (R151). -/
def execJp (nnn : Addr12) (s : State) : Host.Outcome State Fault Refusal :=
  .next (jumpTo (wideAddr nnn) s)

/-- `2nnn` (R152). -/
def execCall (nnn : Addr12) (s : State) : Host.Outcome State Fault Refusal :=
  if s.sp = 16#5 then faultIn .stackOverflow (.call nnn) s
  else orNoSlot ((pushReturn s).map (jumpTo (wideAddr nnn)))

/-- `Bnnn` (R153): the register is always `V[0]` and the sum is not reduced mod 4096. -/
def execJpV0 (nnn : Addr12) (s : State) : Host.Outcome State Fault Refusal :=
  .next (jumpTo (wideAddr nnn + wideByte (readReg s 0#4)) s)

/-- `3xkk` (R154). -/
def execSeI (x : RegNum) (kk : Byte) (s : State) : Host.Outcome State Fault Refusal :=
  .next (skipIf (readReg s x == kk) s)

/-- `4xkk` (R155). -/
def execSneI (x : RegNum) (kk : Byte) (s : State) : Host.Outcome State Fault Refusal :=
  .next (skipIf (readReg s x != kk) s)

/-- `5xy0` (R156). -/
def execSeR (x y : RegNum) (s : State) : Host.Outcome State Fault Refusal :=
  .next (skipIf (readReg s x == readReg s y) s)

/-- `9xy0` (R157). -/
def execSneR (x y : RegNum) (s : State) : Host.Outcome State Fault Refusal :=
  .next (skipIf (readReg s x != readReg s y) s)

end Sys2Proof.Machine
end

