-- ==== Sys2Proof/Machine/IndexMemory.lean ====
section
/-! DEFINITION. Index register and memory (rules R200 to R205). `CheckData` comes before the first write (R70), and no
memory instruction changes `I` (R206). -/

namespace Sys2Proof.Machine

/-- `Annn` (R200). -/
def execLdIdx (nnn : Addr12) (s : State) : Host.Outcome State Fault Refusal :=
  .next (writeIndex (wideAddr nnn) s)

/-- `Fx1E` (R201): mod 2^16, no flag. -/
def execAddIdx (x : RegNum) (s : State) : Host.Outcome State Fault Refusal :=
  .next (writeIndex (s.i + wideByte (readReg s x)) s)

/-- `Fx29` (R202): the low nibble selects the glyph. -/
def execLdF (x : RegNum) (s : State) : Host.Outcome State Fault Refusal :=
  .next (writeIndex (glyphAddress (lowNibble (readReg s x))) s)

/-- `Fx33` (R203). -/
def execLdB (x : RegNum) (s : State) : Host.Outcome State Fault Refusal :=
  if dataInBounds s.i 3 then .next (storeAtIndex (decimalDigits (readReg s x)) s)
  else faultIn .outOfBoundsAccess (.ldB x) s

/-- `Fx55` (R204). -/
def execLdMemVx (x : RegNum) (s : State) : Host.Outcome State Fault Refusal :=
  if dataInBounds s.i (x.toNat + 1) then .next (storeAtIndex (regsUpTo s x) s)
  else faultIn .outOfBoundsAccess (.ldMemVx x) s

/-- `Fx65` (R205). -/
def execLdVxMem (x : RegNum) (s : State) : Host.Outcome State Fault Refusal :=
  if dataInBounds s.i (x.toNat + 1) then .next { s with v := loadRegs s.v 0 (bytesAtIndex s (x.toNat + 1)) }
  else faultIn .outOfBoundsAccess (.ldVxMem x) s

end Sys2Proof.Machine
end

