-- ==== Sys2Proof/Machine/KeysTimers.lean ====
section
/-! DEFINITION. The key and timer instructions (rules R230 to R235). -/

namespace Sys2Proof.Machine

/-- `Ex9E` (R230): the low nibble selects the key, sampled as a level. -/
def execSkp (x : RegNum) (s : State) : Host.Outcome State Fault Refusal :=
  .next (skipIf (keyDown s (lowNibble (readReg s x))) s)

/-- `ExA1` (R231). -/
def execSknp (x : RegNum) (s : State) : Host.Outcome State Fault Refusal :=
  .next (skipIf (!keyDown s (lowNibble (readReg s x))) s)

/-- `Fx07` (R233). -/
def execLdVxDt (x : RegNum) (s : State) : Host.Outcome State Fault Refusal :=
  .next (writeReg x s.dt s)

/-- Sample the keys, arm the wait and stay on this instruction (R232). -/
def waitForKey (s : State) : State :=
  { s with kwPrev := s.key, kwValid := true, pc := fetchAddress s }

/-- The wait is over: the key number goes to `V[x]`, the latch is released and `PC` stays advanced (R232). -/
def acceptKey (x : RegNum) (k : KeyNum) (s : State) : State :=
  { writeReg x (k.setWidth 8) s with kwValid := false }

/-- `Fx0A` (R232): the first execution arms the wait; a later one completes on the least key that is down now and was
up at the last sample, and otherwise samples again and stays. -/
def execLdVxK (x : RegNum) (s : State) : Host.Outcome State Fault Refusal :=
  if s.kwValid then
    match leastKey (s.key &&& ~~~s.kwPrev) with
    | some k => .next (acceptKey x k s)
    | none => .next (waitForKey s)
  else .next (waitForKey s)

/-- `Fx15` (R234). -/
def execLdDtVx (x : RegNum) (s : State) : Host.Outcome State Fault Refusal :=
  .next { s with dt := readReg s x }

/-- `Fx18` (R235). -/
def execLdStVx (x : RegNum) (s : State) : Host.Outcome State Fault Refusal :=
  .next { s with st := readReg s x }

end Sys2Proof.Machine
end

