-- ==== Sys2Proof/Machine/Sequencer.lean ====
section
/-! DEFINITION. The single-step sequencer (rule R123): fetch, advance, decode, execute, and what a `Step` returns. -/

namespace Sys2Proof.Machine

/-- Fetch (R124): the two bytes at `PC` and `PC + 1`, high byte first, or nothing when `PC + 1 > 0xFFF`. The bound is on
the 16-bit `PC` without masking, and `PC` may be odd (R68). -/
def fetchWord (s : State) : Option Word :=
  if s.pc.toNat + 1 > 0xFFF then none
  else some (joinBytes (Memory.read s.mem s.pc.toNat) (Memory.read s.mem (s.pc.toNat + 1)))

/-- One `Step` of a machine with parameters `p` (R123). A halted machine changes nothing (R129). A fetch fault leaves
`PC` at the fetch address; every other fault leaves it advanced (R259). -/
def stepWith (p : Config.Params) (s : State) : Host.Outcome State Fault Refusal :=
  if s.halted then .next s
  else
    match fetchWord s with
    | none => .next (takeFault p .outOfBoundsFetch 0x0000#16 s.pc s)
    | some w =>
      match decodeWord w with
      | none => .next (takeFault p .decodeFault w s.pc (advance s))
      | some i => exec i (advance s)

/-- `CheckData` as a fault or none (R70). -/
def dataFault (base : Word) (count : Nat) : Option FaultKind :=
  if dataInBounds base count then none else some .outOfBoundsAccess

/-- The fault an instruction raises in a state, if any (R250): each instruction has at most one fault condition (R261). -/
def instrFault (i : Instr) (s : State) : Option FaultKind :=
  match i with
  | .ret => if s.sp = 0#5 then some .stackUnderflow else none
  | .call _ => if s.sp = 16#5 then some .stackOverflow else none
  | .drw _ _ n => dataFault s.i n.toNat
  | .ldB _ => dataFault s.i 3
  | .ldMemVx x => dataFault s.i (x.toNat + 1)
  | .ldVxMem x => dataFault s.i (x.toNat + 1)
  | .cls => none
  | .jp _ => none
  | .seI _ _ => none
  | .sneI _ _ => none
  | .seR _ _ => none
  | .ldI _ _ => none
  | .addI _ _ => none
  | .ldR _ _ => none
  | .orR _ _ => none
  | .andR _ _ => none
  | .xorR _ _ => none
  | .addR _ _ => none
  | .sub _ _ => none
  | .shr _ _ => none
  | .subn _ _ => none
  | .shl _ _ => none
  | .sneR _ _ => none
  | .ldIdx _ => none
  | .jpV0 _ => none
  | .rnd _ _ => none
  | .skp _ => none
  | .sknp _ => none
  | .ldVxDt _ => none
  | .ldVxK _ => none
  | .ldDtVx _ => none
  | .ldStVx _ => none
  | .addIdx _ => none
  | .ldF _ => none

/-- A fault as it is reported: its kind, the opcode and the fetch address (R128, R256). -/
structure FaultReport where
  kind : FaultKind
  opcode : Word
  pc : Word
  deriving DecidableEq, Repr

/-- The fault a `Step` of a machine that is not halted raises, if any (R123, R250). -/
def stepFault (s : State) : Option FaultReport :=
  match fetchWord s with
  | none => some { kind := .outOfBoundsFetch, opcode := 0x0000#16, pc := s.pc }
  | some w =>
    match decodeWord w with
    | none => some { kind := .decodeFault, opcode := w, pc := s.pc }
    | some i => (instrFault i (advance s)).map (fun f => { kind := f, opcode := w, pc := s.pc })

/-- The state in which the next `Step` fetches the word `w`: `w` stands at `PC`, the machine is not halted, and a `PC`
that can fetch nothing is moved to the program origin. -/
def placeFetchWord (s : State) (w : Word) : State :=
  let pc := if s.pc.toNat + 1 > 0xFFF then 0x0200#16 else s.pc
  { s with pc := pc, halted := false, mem := Memory.writeBytes s.mem pc.toNat (wordBytes w) }

end Sys2Proof.Machine
end

