-- ==== Sys2Proof/Machine/Step.lean ====
section
/-! DEFINITION. The host's step: one `Step` transaction with the spec's default parameters. -/

namespace Sys2Proof.Machine

/-- One `Step` (R122, R123) with the default parameters (R6). -/
def step (s : State) : Host.Outcome State Fault Refusal := stepWith defaultParams s

/-- The state with the opcode table's word `w` of `nbits` bits stored where the next `Step` fetches. A program reaches
memory through `construct` (R291); this stands for that load (log entry 6). -/
def State.withFetchWord (s : State) (nbits w : Nat) : State := placeFetchWord s (tableWord nbits w)

end Sys2Proof.Machine
end

