-- ==== Sys2Proof/Machine/Transactions.lean ====
section
/-! DEFINITION. Every way the environment acts on the block (rules R120 to R135, R291, R292): the transactions, what
each changes and what each returns. They are atomic and totally ordered, in any order the environment chooses (R135). -/

namespace Sys2Proof.Machine

/-- The transactions of rule R120. The operand `rnd` of `Step` is the free draw `Config.rnd` (log entry 1). -/
inductive Transaction where
  /-- `Construct(img)`: build the launch state (R121, R290). -/
  | construct (img : List Byte)
  /-- `Step(rnd)`: one instruction cycle (R122). -/
  | step
  /-- `TickTimers`: the 60 Hz decrement (R131). -/
  | tickTimers
  /-- `SetKey(k, pressed)` (R132). -/
  | setKey (k : KeyNum) (pressed : Bool)
  /-- `ReadFrameBuffer(x, y)` (R133). -/
  | readFrameBuffer (x : Column) (y : Row)
  /-- `ReadSound` (R268). -/
  | readSound
  /-- `ReadState` (R134). -/
  | readState
  deriving DecidableEq, Repr

/-- What a transaction returns (R120). -/
inductive Response where
  | ok
  | fault (code : BitVec 3) (opcode pc : Word)
  | capacityError
  | nothing
  | bit (b : Bool)
  | snapshot (s : State)
  deriving DecidableEq, Repr

/-- Memory at launch: zero, the font, the image at the program origin (R291). -/
def launchMemory (p : Config.Params) (img : List Byte) : Memory :=
  Memory.writeBytes (Memory.writeBytes [] 0 p.font.toList) Config.programOrigin img

/-- The launch state of an image that fits (R291). -/
def launchState (p : Config.Params) (img : List Byte) : State :=
  { State.reset with mem := launchMemory p img }

/-- `Construct(img)` (R291, R292): the launch state, or for an image too long the halted launch state of no image with a
capacity error recorded. -/
def construct (p : Config.Params) (img : List Byte) : State :=
  if WellFormed.image img then launchState p img
  else takeFault p .capacityError 0x0000#16 0x0000#16 (launchState p [])

/-- One timer's tick: down by one, clamped at zero (R131). -/
def tickDown (t : Byte) : Byte := if t = 0x00#8 then 0x00#8 else t - 0x01#8

/-- `TickTimers` (R131). -/
def tickTimers (s : State) : State := { s with dt := tickDown s.dt, st := tickDown s.st }

/-- `SetKey(k, pressed)` (R132). -/
def setKey (k : KeyNum) (pressed : Bool) (s : State) : State :=
  { s with key := if pressed then s.key ||| (1#16 <<< k.toNat) else s.key &&& ~~~(1#16 <<< k.toNat) }

/-- `ReadFrameBuffer(x, y)` (R133). -/
def readFrameBuffer (s : State) (x : Column) (y : Row) : Bool := pixel s.fb x y

/-- The whole buffer as a flat row-major array, index `64*y + x` (R133). -/
def flatFrameBuffer (s : State) : List Bool :=
  (List.range 2048).map (fun k => pixel s.fb (BitVec.ofNat 6 (k % 64)) (BitVec.ofNat 5 (k / 64)))

/-- `sound_on` (R268). -/
def soundOn (s : State) : Bool := s.st != 0x00#8

/-- What `Step` returns (R128, R129): the recorded fault again when halted, the fault raised, or `Ok`. -/
def stepResponse (s : State) : Response :=
  if s.halted then .fault s.fcode s.fopc s.fpc
  else
    match stepFault s with
    | none => .ok
    | some r => .fault r.kind.code r.opcode r.pc

/-- What a transaction does to the state. A new construction keeps nothing (R290) but the number of the next draw, which
is the environment's (log entry 1). -/
def transact (p : Config.Params) (t : Transaction) (s : State) : Host.Outcome State Fault Refusal :=
  match t with
  | .construct img => .next { construct p img with draws := s.draws }
  | .step => stepWith p s
  | .tickTimers => .next (tickTimers s)
  | .setKey k pressed => .next (setKey k pressed s)
  | .readFrameBuffer _ _ => .next s
  | .readSound => .next s
  | .readState => .next s

/-- What a transaction issued in a state returns. -/
def response (t : Transaction) (s : State) : Response :=
  match t with
  | .construct img => if WellFormed.image img then .ok else .capacityError
  | .step => stepResponse s
  | .tickTimers => .nothing
  | .setKey _ _ => .nothing
  | .readFrameBuffer x y => .bit (readFrameBuffer s x y)
  | .readSound => .bit (soundOn s)
  | .readState => .snapshot s

/-- A sequence of transactions, in the environment's order (R135). -/
def runTransactions (p : Config.Params) (ts : List Transaction) (s : State) : Host.Outcome State Fault Refusal :=
  match ts with
  | [] => .next s
  | t :: rest =>
    match transact p t s with
    | .next s' => runTransactions p rest s'
    | .fault r => .fault r
    | .refused r => .refused r

end Sys2Proof.Machine
end

