-- ==== Sys2Proof/Safety.lean ====
section
/-! DEFINITION. What counts as a sound state and a safe run, and the frames that claims are stated with. -/

namespace Sys2Proof.Safety

open Sys2Proof.Machine

/-- The invariants of every reachable state (R39), for a machine with parameters `p`. -/
structure Inv (p : Config.Params) (s : State) : Prop where
  /-- `0 <= SP <= 16`. -/
  sp_le : s.sp.toNat ≤ 16
  /-- `PC <= 0x10FE`. -/
  pc_le : s.pc.toNat ≤ 0x10FE
  /-- Every live return address is at most `0x1000`. -/
  stack_le : ∀ k : Fin 16, k.val < s.sp.toNat → (s.stack[k.val]).toNat ≤ 0x1000
  /-- The model's memory is in canonical form. -/
  mem_wf : Memory.wf s.mem
  /-- A key wait means that the machine runs and the word at `PC` is an `Fx0A`. -/
  waiting : s.kwValid = true →
    s.halted = false ∧ ∃ w x, fetchWord s = some w ∧ decodeWord w = some (.ldVxK x)
  /-- A halted machine has a fault recorded. -/
  halted_fault : s.halted = true → s.fcode ≠ 0#3
  /-- With `DECODE_FAULT_HALTS`, a fault recorded means halted. -/
  fault_halted : p.decodeFaultHalts = true → s.fcode ≠ 0#3 → s.halted = true

/-- The states reachable from a launch by transactions (R39, R135). The number of the next draw is the environment's,
so a launch may start at any. -/
inductive Reachable (p : Config.Params) : State → Prop where
  | launch (img : List Byte) (draws : Nat) : Reachable p { construct p img with draws := draws }
  | transact {s t : State} (a : Transaction) (hs : Reachable p s) (h : transact p a s = .next t) : Reachable p t

/-- No fault has been recorded, the premise of a claim about a run (R272). -/
def noFault (s : State) : Prop := s.fcode = 0#3

/-- Every general register outside the list is unchanged. -/
def regsKeptExcept (xs : List RegNum) (s t : State) : Prop :=
  ∀ y : RegNum, y ∉ xs → readReg t y = readReg s y

/-- Every byte of memory reads as before. -/
def memoryKept (s t : State) : Prop := ∀ a : Nat, Memory.read t.mem a = Memory.read s.mem a

/-- Every byte of memory outside `count` bytes from `base` reads as before. -/
def memoryKeptOutside (base count : Nat) (s t : State) : Prop :=
  ∀ a : Nat, a < base ∨ base + count ≤ a → Memory.read t.mem a = Memory.read s.mem a

/-- Nothing changes but general registers of the list: every other register, all of memory and every other field of the
state are as before. -/
def onlyRegsChange (xs : List RegNum) (s t : State) : Prop :=
  regsKeptExcept xs s t ∧ memoryKept s t ∧ t = { s with v := t.v }

/-- The word is the instruction's encoding, and decodes to it (R95). -/
def encodedAs (i : Instr) (w : Word) : Prop := encodeWord i = w ∧ decodeWord w = some i

/-- The field `x` at its place in a word, `x << 8` (R91). -/
def atX (x : RegNum) : Word := x.setWidth 16 <<< 8

/-- The field `y` at its place in a word, `y << 4` (R91). -/
def atY (y : RegNum) : Word := y.setWidth 16 <<< 4

/-- The registers an instruction may write, explicitly or as the flag (the write rows of R21). -/
def writtenRegs (i : Instr) : List RegNum :=
  match i with
  | .ldI x _ => [x]
  | .addI x _ => [x]
  | .ldR x _ => [x]
  | .orR x _ => [x]
  | .andR x _ => [x]
  | .xorR x _ => [x]
  | .rnd x _ => [x]
  | .ldVxDt x => [x]
  | .ldVxK x => [x]
  | .addR x _ => [x, 0xF#4]
  | .sub x _ => [x, 0xF#4]
  | .shr x _ => [x, 0xF#4]
  | .subn x _ => [x, 0xF#4]
  | .shl x _ => [x, 0xF#4]
  | .drw _ _ _ => [0xF#4]
  | .ldVxMem x => (List.range (x.toNat + 1)).map (BitVec.ofNat 4)
  | _ => []

/-- How an instruction that does not fault leaves `PC`, seen from the advanced `PC` of `s` (R25). -/
def pcRule (i : Instr) (s t : State) : Prop :=
  match i with
  | .jp nnn => t.pc.toNat = nnn.toNat
  | .call nnn => t.pc.toNat = nnn.toNat
  | .jpV0 nnn => t.pc.toNat = nnn.toNat + (readReg s 0x0#4).toNat
  | .ret => ∃ h : s.sp.toNat - 1 < 16, t.pc = s.stack[s.sp.toNat - 1]
  | .seI x kk => t.pc = if readReg s x = kk then s.pc + 2#16 else s.pc
  | .sneI x kk => t.pc = if readReg s x ≠ kk then s.pc + 2#16 else s.pc
  | .seR x y => t.pc = if readReg s x = readReg s y then s.pc + 2#16 else s.pc
  | .sneR x y => t.pc = if readReg s x ≠ readReg s y then s.pc + 2#16 else s.pc
  | .skp x => t.pc = if keyDown s (lowNibble (readReg s x)) = true then s.pc + 2#16 else s.pc
  | .sknp x => t.pc = if keyDown s (lowNibble (readReg s x)) = false then s.pc + 2#16 else s.pc
  | .ldVxK _ => t.pc = if t.kwValid = true then s.pc - 2#16 else s.pc
  | _ => t.pc = s.pc

/-- Key `k` is down now and was up at the last sample of the wait (R232). -/
def keyWentDown (s : State) (k : KeyNum) : Prop :=
  s.key.getLsbD k.toNat = true ∧ s.kwPrev.getLsbD k.toNat = false

/-- A sprite bit that is 1 lands on the pixel `(px, py)`: some row below `n` and some column below 8 of the sprite at
`I`, placed at `(V[x], V[y])` with both coordinates wrapping (R221). -/
def spriteCovers (s : State) (x y : RegNum) (n : BitVec 4) (px : Column) (py : Row) : Prop :=
  ∃ row < n.toNat, ∃ col < 8,
    (Memory.read s.mem (s.i.toNat + row)).getLsbD (7 - col) = true
    ∧ px.toNat = ((readReg s x).toNat + col) % 64
    ∧ py.toNat = ((readReg s y).toNat + row) % 32

end Sys2Proof.Safety
end

