-- ==== Sys2Proof/Certificates/Slice0/Obligations.lean ====
section
/-! DEFINITION. The statements for the provers, in the order of the spec's files. A meaning runs on a state whose `PC` is
already `PCf + 2` (R125), so `s.pc - 2` is the fetch address and an unchanged `pc` is `PCf + 2`. -/

open Sys2Proof Sys2Proof.Machine Sys2Proof.Safety

/-! ## Encoding -/

/-- Words written out bit by bit from the patterns of R95, at least one of each family, decode to their instructions,
and reserved words of each family with a sub-field do not decode. -/
def Obligations.WordsOfTheSpecDecode : Prop :=
  decodeWord 0b0000000011100000#16 = some .cls
  ∧ decodeWord 0b0000000011101110#16 = some .ret
  ∧ decodeWord 0b0001101010111100#16 = some (.jp 0xABC)
  ∧ decodeWord 0b0010101010111100#16 = some (.call 0xABC)
  ∧ decodeWord 0b0011001100101010#16 = some (.seI 3 0x2A)
  ∧ decodeWord 0b0101000100100000#16 = some (.seR 1 2)
  ∧ decodeWord 0b1000000100100100#16 = some (.addR 1 2)
  ∧ decodeWord 0b1000000100101110#16 = some (.shl 1 2)
  ∧ decodeWord 0b1001000100100000#16 = some (.sneR 1 2)
  ∧ decodeWord 0b1101000100100101#16 = some (.drw 1 2 5)
  ∧ decodeWord 0b1110001010011110#16 = some (.skp 2)
  ∧ decodeWord 0b1110001010100001#16 = some (.sknp 2)
  ∧ decodeWord 0b1111001101010101#16 = some (.ldMemVx 3)
  ∧ decodeWord 0b1111001101100101#16 = some (.ldVxMem 3)
  ∧ decodeWord 0x0123#16 = none ∧ decodeWord 0x5121#16 = none ∧ decodeWord 0x8128#16 = none
  ∧ decodeWord 0x9AB5#16 = none ∧ decodeWord 0xE19F#16 = none ∧ decodeWord 0xFFFF#16 = none

/-- R94, R90: every instruction, with every operand at every value, is read back from its two bytes, whatever bytes
follow; no field value makes its word illegal. -/
def Obligations.DecodeOfEncodeIsTheInstruction : Prop :=
  ∀ (i : Instr) (rest : List Byte),
    (encode i).length = 2 ∧ decode (encode i ++ rest) = .ok (i, rest)
    ∧ decodeTableWord 16 (encodeWord i).toNat = some i
    ∧ WellFormed.word (encodeWord i) = true

/-- R91: decoding drops no bit, so a legal word is the encoding of the instruction it decodes to. -/
def Obligations.EncodeOfDecodeIsTheWord : Prop :=
  ∀ (w : Word) (i : Instr), decodeWord w = some i → encodeWord i = w

/-- R93: a word is the instruction of the one row it matches, and a word that matches no row is illegal. -/
def Obligations.DecodeSelectsTheOnlyMatchingRow : Prop :=
  opcodeTable.length = 34
  ∧ (∀ (w : Word) (i : Instr), decodeWord w = some i →
      (opcodeRow i).accepts w = true ∧ opcodeRow i ∈ opcodeTable
      ∧ ∀ r ∈ opcodeTable, r.accepts w = true → r = opcodeRow i)
  ∧ (∀ w : Word, decodeWord w = none ↔ ∀ r ∈ opcodeTable, r.accepts w = false)

/-- R96, R98: the words that do not decode are exactly the listed ones. -/
def Obligations.IllegalWordsAreTheListedOnes : Prop :=
  ∀ w : Word, decodeWord w = none ↔ WellFormed.illegalWord w = true

/-! ## The sequencer -/

/-- R123, R125: where the machine is not halted, the fetch succeeds and the big-endian word at `PC` decodes, a step is
the instruction's meaning on the state with `PC` advanced by 2, whatever the parameters. -/
def Obligations.StepRunsTheDecodedInstruction : Prop :=
  ∀ (p : Config.Params) (s : State) (i : Instr), s.halted = false → s.pc.toNat ≤ 0xFFE →
    decodeWord (Memory.read s.mem s.pc.toNat ++ Memory.read s.mem (s.pc.toNat + 1)) = some i →
    step s = exec i { s with pc := s.pc + 2#16 } ∧ stepWith p s = exec i { s with pc := s.pc + 2#16 }

/-- R251, R258: an illegal word leaves everything but the advanced `PC`, the fault record and, as the parameter says,
`HALTED`. The code 1 is the spec's decision D8 and the halting its decision D7. -/
def Obligations.DecodeFaultRecordsAndAdvances : Prop :=
  ∀ (p : Config.Params) (s : State) (w : Word), s.halted = false → fetchWord s = some w →
    WellFormed.illegalWord w = true →
    stepWith p s = .next { s with
      pc := s.pc + 2#16, fcode := 1#3, fopc := w, fpc := s.pc, halted := p.decodeFaultHalts }

/-- R254: a fetch with `PC + 1` beyond memory changes only the fault record and `HALTED`. The code 4 is the spec's
decision D8. -/
def Obligations.OutOfBoundsFetchHalts : Prop :=
  ∀ (p : Config.Params) (s : State), s.halted = false → 0xFFF ≤ s.pc.toNat →
    stepWith p s = .next { s with fcode := 4#3, fopc := 0x0000#16, fpc := s.pc, halted := true }

/-- R129 (the spec's decision D27): a halted machine changes nothing and returns the recorded fault again, and only a
construction can leave the halted state. -/
def Obligations.HaltedIsAbsorbing : Prop :=
  ∀ (p : Config.Params) (s : State), s.halted = true →
    stepWith p s = .next s ∧ stepResponse s = .fault s.fcode s.fopc s.fpc
    ∧ ∀ (a : Transaction) (t : State), (∀ img, a ≠ .construct img) → transact p a s = .next t → t.halted = true

/-- R127, R128, R256, R259: a step that raises no fault returns `Ok` and leaves the fault record and `HALTED`; a step that
raises one returns it, and changes the fault record, `HALTED` as the fault says and `PC` by the advance (not even that
for a fetch fault), and nothing else. The codes and what halts are the spec's decisions D6 to D8. -/
def Obligations.FaultsArePreciseAndReported : Prop :=
  ∀ (p : Config.Params) (s t : State), s.halted = false → stepWith p s = .next t →
    (stepFault s = none → stepResponse s = .ok
      ∧ t.fcode = s.fcode ∧ t.fopc = s.fopc ∧ t.fpc = s.fpc ∧ t.halted = false)
    ∧ (∀ r, stepFault s = some r → stepResponse s = .fault t.fcode t.fopc t.fpc
      ∧ t = { s with
          pc := if r.kind = .outOfBoundsFetch then s.pc else s.pc + 2#16
          fcode := r.kind.code, fopc := r.opcode, fpc := s.pc, halted := r.kind.halts p })

/-- R122: every transaction on a state that meets the invariants answers a next state: no step is refused and none stops
the model. -/
def Obligations.EveryTransactionAnswers : Prop :=
  ∀ (p : Config.Params) (a : Transaction) (s : State), Inv p s → ∃ t, transact p a s = .next t

/-- R25, R136: how each instruction leaves `PC` when it does not fault, so that no instruction advances twice. Which key a
skip reads for a register above 15, and when a key wait stays, are the spec's decisions D12 and D13. -/
def Obligations.PcAfterEachInstruction : Prop :=
  ∀ (i : Instr) (s t : State), instrFault i s = none → exec i s = .next t → pcRule i s t

/-- R139: a jump to itself leaves the whole state fixed. -/
def Obligations.SelfJumpIsAFixedPoint : Prop :=
  ∀ (s : State) (nnn : Addr12), s.halted = false → s.pc = nnn.setWidth 16 → fetchWord s = some (encodeWord (.jp nnn)) →
    step s = .next s

/-! ## Who writes what -/

/-- R21, R22: an instruction changes no general register but the ones listed for it; the flag is changed as a side effect
by six instructions only. -/
def Obligations.OnlyListedRegistersChange : Prop :=
  ∀ (i : Instr) (s t : State) (y : RegNum), exec i s = .next t → y ∉ writtenRegs i → readReg t y = readReg s y

/-- R61, R72: a byte of memory changes only by `Construct` or in a step that runs an `Fx33` or an `Fx55`. -/
def Obligations.OnlyStoresAndConstructChangeMemory : Prop :=
  ∀ (p : Config.Params) (a : Transaction) (s t : State), transact p a s = .next t → t.mem ≠ s.mem →
    (∃ img, a = .construct img)
    ∨ (a = .step ∧ s.halted = false ∧ ∃ w x, fetchWord s = some w
        ∧ (decodeWord w = some (.ldB x) ∨ decodeWord w = some (.ldMemVx x)))

/-- R223: a pixel changes only by `Construct` or in a step that runs a `00E0` or a `Dxyn`, and no fault changes one. -/
def Obligations.OnlyClearDrawAndConstructChangePixels : Prop :=
  ∀ (p : Config.Params) (a : Transaction) (s t : State), transact p a s = .next t → t.fb ≠ s.fb →
    (∃ img, a = .construct img)
    ∨ (a = .step ∧ s.halted = false ∧ stepFault s = none ∧ ∃ w, fetchWord s = some w
        ∧ (decodeWord w = some .cls ∨ ∃ x y n, decodeWord w = some (.drw x y n)))

/-- R23, R27, R29, R30, R32, R36, R130, R137: which instructions change `I`, the timers, the call stack, the key-wait latch
and the number of the next draw, and that none changes a key. `Step` never ticks a timer. -/
def Obligations.OnlyNamedInstructionsChangeSpecialRegisters : Prop :=
  ∀ (i : Instr) (s t : State), exec i s = .next t →
    t.key = s.key
    ∧ (t.i ≠ s.i → (∃ nnn, i = .ldIdx nnn) ∨ (∃ x, i = .addIdx x) ∨ (∃ x, i = .ldF x))
    ∧ (t.dt ≠ s.dt → ∃ x, i = .ldDtVx x ∧ t.dt = readReg s x)
    ∧ (t.st ≠ s.st → ∃ x, i = .ldStVx x ∧ t.st = readReg s x)
    ∧ (t.sp ≠ s.sp → instrFault i s = none ∧ (i = .ret ∨ ∃ nnn, i = .call nnn))
    ∧ (t.stack ≠ s.stack → instrFault i s = none ∧ ∃ nnn, i = .call nnn)
    ∧ (t.kwValid ≠ s.kwValid ∨ t.kwPrev ≠ s.kwPrev → ∃ x, i = .ldVxK x)
    ∧ (t.draws ≠ s.draws → ∃ x kk, i = .rnd x kk)

/-! ## Invariants -/

/-- R39 holds at reset. -/
def Obligations.ResetMeetsTheInvariants : Prop := Inv defaultParams State.reset

/-- R39 holds of what `Construct` builds, from any image and with any parameters. -/
def Obligations.EveryConstructionMeetsTheInvariants : Prop :=
  ∀ (p : Config.Params) (img : List Byte), Inv p (construct p img)

/-- R39: a step keeps the invariants, from every state that meets them. -/
def Obligations.StepKeepsTheInvariants : Prop :=
  ∀ s t : State, Inv defaultParams s → step s = .next t → Inv defaultParams t

/-- R39: every transaction keeps the invariants, with any parameters, so every reachable state meets them. -/
def Obligations.EveryReachableStateMeetsTheInvariants : Prop :=
  ∀ p : Config.Params,
    (∀ (a : Transaction) (s t : State), Inv p s → transact p a s = .next t → Inv p t)
    ∧ ∀ s : State, Reachable p s → Inv p s

/-! ## Control transfer -/

/-- R151, R153: the jumps. -/
def Obligations.JumpsSetThePc : Prop :=
  ∀ (s : State) (nnn : Addr12),
    (encodedAs (.jp nnn) (0x1000#16 ||| nnn.setWidth 16)
      ∧ exec (.jp nnn) s = .next { s with pc := nnn.setWidth 16 })
    ∧ (encodedAs (.jpV0 nnn) (0xB000#16 ||| nnn.setWidth 16)
      ∧ ∃ t, exec (.jpV0 nnn) s = .next t ∧ t.pc.toNat = nnn.toNat + (readReg s 0x0#4).toNat
        ∧ t = { s with pc := t.pc })

/-- R152, R252: a call pushes the advanced `PC` and jumps; at full stack it faults and changes only the fault record and
`HALTED`. The code 2 and the halting are the spec's decisions D7 and D8. -/
def Obligations.CallPushesOrOverflows : Prop :=
  ∀ (s : State) (nnn : Addr12),
    encodedAs (.call nnn) (0x2000#16 ||| nnn.setWidth 16)
    ∧ (s.sp.toNat < 16 → ∃ t, exec (.call nnn) s = .next t
        ∧ t.pc = nnn.setWidth 16 ∧ t.sp.toNat = s.sp.toNat + 1
        ∧ (∀ k : Fin 16, t.stack[k.val] = if k.val = s.sp.toNat then s.pc else s.stack[k.val])
        ∧ memoryKept s t
        ∧ t = { s with pc := t.pc, sp := t.sp, stack := t.stack })
    ∧ (s.sp = 16#5 → exec (.call nnn) s = .next { s with
        fcode := 2#3, fopc := 0x2000#16 ||| nnn.setWidth 16, fpc := s.pc - 2#16, halted := true })

/-- R150, R253: a return pops into `PC` and leaves the slot; with empty stack it faults and changes only the fault record
and `HALTED`. The code 3 and the halting are the spec's decisions D7 and D8. -/
def Obligations.ReturnPopsOrUnderflows : Prop :=
  ∀ s : State,
    encodedAs .ret 0x00EE#16
    ∧ (∀ k : Fin 16, s.sp.toNat = k.val + 1 → ∃ t, exec .ret s = .next t
        ∧ t.pc = s.stack[k.val] ∧ t.sp.toNat = k.val
        ∧ memoryKept s t
        ∧ t = { s with pc := t.pc, sp := t.sp })
    ∧ (s.sp = 0#5 → exec .ret s = .next { s with
        fcode := 3#3, fopc := 0x00EE#16, fpc := s.pc - 2#16, halted := true })

/-- R27: `SP` above 16 names no slot. The spec says these values are never reached; the model stops there by name, which
is the model's choice (log entry 7). -/
def Obligations.NoSlotBeyondSixteen : Prop :=
  ∀ (s : State) (nnn : Addr12), 16 < s.sp.toNat →
    exec (.call nnn) s = .fault .noStackSlot ∧ exec .ret s = .fault .noStackSlot

/-- R150, R152 (the source's property S4): a call and the return at its target come back to the instruction after the
call with the depth as before, and change nothing else but the stack slot. -/
def Obligations.CallThenReturnComesBack : Prop :=
  ∀ (s : State) (nnn : Addr12), s.halted = false → s.sp.toNat < 16 →
    fetchWord s = some (encodeWord (.call nnn)) → nnn.toNat ≤ 0xFFE →
    Memory.read s.mem nnn.toNat = 0x00#8 → Memory.read s.mem (nnn.toNat + 1) = 0xEE#8 →
    ∃ t u, step s = .next t ∧ step t = .next u ∧ t.pc = nnn.setWidth 16
      ∧ u.pc = s.pc + 2#16 ∧ u.sp = s.sp ∧ u = { s with pc := u.pc, stack := u.stack }

/-- R154 to R157: the skips on register values change only `PC`, by 2 when the test holds. -/
def Obligations.SkipsCompareRegisters : Prop :=
  ∀ (s : State) (x y : RegNum) (kk : Byte),
    (encodedAs (.seI x kk) (0x3000#16 ||| atX x ||| kk.setWidth 16)
      ∧ exec (.seI x kk) s = .next { s with pc := if readReg s x = kk then s.pc + 2#16 else s.pc })
    ∧ (encodedAs (.sneI x kk) (0x4000#16 ||| atX x ||| kk.setWidth 16)
      ∧ exec (.sneI x kk) s = .next { s with pc := if readReg s x = kk then s.pc else s.pc + 2#16 })
    ∧ (encodedAs (.seR x y) (0x5000#16 ||| atX x ||| atY y)
      ∧ exec (.seR x y) s = .next { s with pc := if readReg s x = readReg s y then s.pc + 2#16 else s.pc })
    ∧ (encodedAs (.sneR x y) (0x9000#16 ||| atX x ||| atY y)
      ∧ exec (.sneR x y) s = .next { s with pc := if readReg s x = readReg s y then s.pc else s.pc + 2#16 })

/-! ## Register load and ALU -/

/-- R170, R171, R172: the loads, and the immediate add mod 256 without a flag. -/
def Obligations.LoadsAndImmediateAdd : Prop :=
  ∀ (s : State) (x y : RegNum) (kk : Byte),
    (encodedAs (.ldI x kk) (0x6000#16 ||| atX x ||| kk.setWidth 16)
      ∧ ∃ t, exec (.ldI x kk) s = .next t ∧ readReg t x = kk ∧ onlyRegsChange [x] s t)
    ∧ (encodedAs (.addI x kk) (0x7000#16 ||| atX x ||| kk.setWidth 16)
      ∧ ∃ t, exec (.addI x kk) s = .next t
        ∧ (readReg t x).toNat = ((readReg s x).toNat + kk.toNat) % 256 ∧ onlyRegsChange [x] s t)
    ∧ (encodedAs (.ldR x y) (0x8000#16 ||| atX x ||| atY y)
      ∧ ∃ t, exec (.ldR x y) s = .next t ∧ readReg t x = readReg s y ∧ onlyRegsChange [x] s t)

/-- R173, R174, R175: the bitwise operations, bit by bit; the flag is not written (the spec's decision D23). -/
def Obligations.BitwiseOperationsActOnEachBit : Prop :=
  ∀ (s : State) (x y : RegNum),
    (encodedAs (.orR x y) (0x8001#16 ||| atX x ||| atY y)
      ∧ ∃ t, exec (.orR x y) s = .next t ∧ onlyRegsChange [x] s t
        ∧ ∀ k < 8, (readReg t x).getLsbD k = ((readReg s x).getLsbD k || (readReg s y).getLsbD k))
    ∧ (encodedAs (.andR x y) (0x8002#16 ||| atX x ||| atY y)
      ∧ ∃ t, exec (.andR x y) s = .next t ∧ onlyRegsChange [x] s t
        ∧ ∀ k < 8, (readReg t x).getLsbD k = ((readReg s x).getLsbD k && (readReg s y).getLsbD k))
    ∧ (encodedAs (.xorR x y) (0x8003#16 ||| atX x ||| atY y)
      ∧ ∃ t, exec (.xorR x y) s = .next t ∧ onlyRegsChange [x] s t
        ∧ ∀ k < 8, (readReg t x).getLsbD k = ((readReg s x).getLsbD k ^^ (readReg s y).getLsbD k))

/-- R176: the register add and its carry. With `x = 0xF` the flag, written last, stands (R185, the spec's decision D17). -/
def Obligations.RegisterAddSetsTheCarry : Prop :=
  ∀ (s : State) (x y : RegNum),
    encodedAs (.addR x y) (0x8004#16 ||| atX x ||| atY y)
    ∧ ∃ t, exec (.addR x y) s = .next t ∧ onlyRegsChange [x, 0xF#4] s t
      ∧ (x ≠ 0xF#4 → (readReg t x).toNat = ((readReg s x).toNat + (readReg s y).toNat) % 256)
      ∧ readReg t 0xF#4 = if (readReg s x).toNat + (readReg s y).toNat > 255 then 1#8 else 0#8

/-- R177, R179: the two subtractions and their no-borrow flag. With `x = 0xF` the flag, written last, stands (R185, the
spec's decision D17). -/
def Obligations.SubtractionsSetTheNoBorrowFlag : Prop :=
  ∀ (s : State) (x y : RegNum),
    (encodedAs (.sub x y) (0x8005#16 ||| atX x ||| atY y)
      ∧ ∃ t, exec (.sub x y) s = .next t ∧ onlyRegsChange [x, 0xF#4] s t
        ∧ (x ≠ 0xF#4 → (readReg t x).toNat = ((readReg s x).toNat + 256 - (readReg s y).toNat) % 256)
        ∧ readReg t 0xF#4 = if (readReg s x).toNat ≥ (readReg s y).toNat then 1#8 else 0#8)
    ∧ (encodedAs (.subn x y) (0x8007#16 ||| atX x ||| atY y)
      ∧ ∃ t, exec (.subn x y) s = .next t ∧ onlyRegsChange [x, 0xF#4] s t
        ∧ (x ≠ 0xF#4 → (readReg t x).toNat = ((readReg s y).toNat + 256 - (readReg s x).toNat) % 256)
        ∧ readReg t 0xF#4 = if (readReg s y).toNat ≥ (readReg s x).toNat then 1#8 else 0#8)

/-- R178, R180, R185: the shifts, whose `y` field plays no part. With `x = 0xF` the flag is written first and then
shifted, which is the spec's decision D17. -/
def Obligations.ShiftsMoveOneBitToTheFlag : Prop :=
  ∀ (s : State) (x y : RegNum),
    (encodedAs (.shr x y) (0x8006#16 ||| atX x ||| atY y)
      ∧ ∃ t, exec (.shr x y) s = .next t ∧ onlyRegsChange [x, 0xF#4] s t
        ∧ (x ≠ 0xF#4 → (readReg t x).toNat = (readReg s x).toNat / 2
            ∧ (readReg t 0xF#4).toNat = (readReg s x).toNat % 2)
        ∧ (x = 0xF#4 → readReg t 0xF#4 = 0x00#8))
    ∧ (encodedAs (.shl x y) (0x800E#16 ||| atX x ||| atY y)
      ∧ ∃ t, exec (.shl x y) s = .next t ∧ onlyRegsChange [x, 0xF#4] s t
        ∧ (x ≠ 0xF#4 → (readReg t x).toNat = 2 * (readReg s x).toNat % 256
            ∧ (readReg t 0xF#4).toNat = (readReg s x).toNat / 128)
        ∧ (x = 0xF#4 → readReg t 0xF#4 = if (readReg s x).toNat ≥ 0x80 then 0x02#8 else 0x00#8))

/-- R181 (the spec's decision D14, log entry 1): the random load gives the free draw masked by `kk`, whatever the draw
is, so its bits outside the mask are 0, and the next draw is another. -/
def Obligations.RandomLoadIsMasked : Prop :=
  ∀ (s : State) (x : RegNum) (kk : Byte),
    encodedAs (.rnd x kk) (0xC000#16 ||| atX x ||| kk.setWidth 16)
    ∧ ∃ t, exec (.rnd x kk) s = .next t ∧ readReg t x = Config.rnd s.draws &&& kk
      ∧ (∀ k < 8, kk.getLsbD k = false → (readReg t x).getLsbD k = false)
      ∧ regsKeptExcept [x] s t ∧ memoryKept s t ∧ t = { s with v := t.v, draws := s.draws + 1 }

/-! ## Index register and memory -/

/-- R200, R201, R202: the three writes of `I`. The wrap of the add at 2^16 is the spec's decision D10, and the use of the
low nibble of a digit above 15 its decision D11. -/
def Obligations.IndexRegisterWrites : Prop :=
  ∀ (s : State) (x : RegNum) (nnn : Addr12),
    (encodedAs (.ldIdx nnn) (0xA000#16 ||| nnn.setWidth 16)
      ∧ exec (.ldIdx nnn) s = .next { s with i := nnn.setWidth 16 })
    ∧ (encodedAs (.addIdx x) (0xF01E#16 ||| atX x)
      ∧ ∃ t, exec (.addIdx x) s = .next t ∧ t.i.toNat = (s.i.toNat + (readReg s x).toNat) % 65536
        ∧ t = { s with i := t.i })
    ∧ (encodedAs (.ldF x) (0xF029#16 ||| atX x)
      ∧ ∃ t, exec (.ldF x) s = .next t ∧ t.i.toNat = 5 * ((readReg s x).toNat % 16) ∧ t = { s with i := t.i })

/-- R203: the three decimal digits of `V[x]` at `I`, `I + 1`, `I + 2`, and no other byte changes. -/
def Obligations.DecimalStoreWritesThreeDigits : Prop :=
  ∀ (s : State) (x : RegNum), encodedAs (.ldB x) (0xF033#16 ||| atX x)
    ∧ (Memory.wf s.mem → s.i.toNat + 2 ≤ 0xFFF →
      ∃ t, exec (.ldB x) s = .next t
        ∧ (Memory.read t.mem s.i.toNat).toNat = (readReg s x).toNat / 100
        ∧ (Memory.read t.mem (s.i.toNat + 1)).toNat = (readReg s x).toNat / 10 % 10
        ∧ (Memory.read t.mem (s.i.toNat + 2)).toNat = (readReg s x).toNat % 10
        ∧ memoryKeptOutside s.i.toNat 3 s t ∧ t = { s with mem := t.mem })

/-- R204: `V[0]` to `V[x]` at `I` on, and no other byte changes; `I` stays (the spec's decision D23). -/
def Obligations.RegisterStoreWritesTheBlock : Prop :=
  ∀ (s : State) (x : RegNum), encodedAs (.ldMemVx x) (0xF055#16 ||| atX x)
    ∧ (Memory.wf s.mem → s.i.toNat + x.toNat ≤ 0xFFF →
      ∃ t, exec (.ldMemVx x) s = .next t
        ∧ (∀ y : RegNum, y.toNat ≤ x.toNat → Memory.read t.mem (s.i.toNat + y.toNat) = readReg s y)
        ∧ memoryKeptOutside s.i.toNat (x.toNat + 1) s t ∧ t = { s with mem := t.mem })

/-- R205: `V[0]` to `V[x]` from `I` on, and the registers above `V[x]` stay; `I` stays (the spec's decision D23). -/
def Obligations.RegisterLoadReadsTheBlock : Prop :=
  ∀ (s : State) (x : RegNum), encodedAs (.ldVxMem x) (0xF065#16 ||| atX x)
    ∧ (s.i.toNat + x.toNat ≤ 0xFFF →
      ∃ t, exec (.ldVxMem x) s = .next t
        ∧ (∀ y : RegNum, readReg t y =
            if y.toNat ≤ x.toNat then Memory.read s.mem (s.i.toNat + y.toNat) else readReg s y)
        ∧ memoryKept s t ∧ t = { s with v := t.v })

/-- R70, R255 (the spec's decisions D6 to D9): an instruction that would touch a byte above `0xFFF` changes only the fault
record and `HALTED`, and `Dxyn` with `n = 0` touches none. -/
def Obligations.OutOfBoundsAccessChangesNothingElse : Prop :=
  ∀ (s : State) (x y : RegNum) (n : BitVec 4),
    (0xFFF < s.i.toNat + 2 → exec (.ldB x) s = .next { s with
      fcode := 5#3, fopc := 0xF033#16 ||| atX x, fpc := s.pc - 2#16, halted := true })
    ∧ (0xFFF < s.i.toNat + x.toNat → exec (.ldMemVx x) s = .next { s with
      fcode := 5#3, fopc := 0xF055#16 ||| atX x, fpc := s.pc - 2#16, halted := true })
    ∧ (0xFFF < s.i.toNat + x.toNat → exec (.ldVxMem x) s = .next { s with
      fcode := 5#3, fopc := 0xF065#16 ||| atX x, fpc := s.pc - 2#16, halted := true })
    ∧ (0 < n.toNat → 0x1000 < s.i.toNat + n.toNat → exec (.drw x y n) s = .next { s with
      fcode := 5#3, fopc := 0xD000#16 ||| atX x ||| atY y ||| n.setWidth 16, fpc := s.pc - 2#16, halted := true })

/-- R204, R205: loading the block that was just stored gives the stored registers back, whatever the registers held in
between. -/
def Obligations.StoreThenLoadRestoresRegisters : Prop :=
  ∀ (s t : State) (x : RegNum) (v : Vector Byte 16), Memory.wf s.mem → s.i.toNat + x.toNat ≤ 0xFFF →
    exec (.ldMemVx x) s = .next t →
    ∃ u, exec (.ldVxMem x) { t with v := v } = .next u
      ∧ ∀ y : RegNum, y.toNat ≤ x.toNat → readReg u y = readReg s y

/-- R77: bytes stored by `Fx55` are the word the next fetch reads there. -/
def Obligations.StoreIsSeenByTheNextFetch : Prop :=
  ∀ (s t : State) (x : RegNum), Memory.wf s.mem → 1 ≤ x.toNat → s.i.toNat + x.toNat ≤ 0xFFF →
    exec (.ldMemVx x) s = .next t →
    fetchWord { t with pc := s.i } = some (readReg s 0x0#4 ++ readReg s 0x1#4)

/-! ## Display -/

/-- R220: clearing turns every pixel off and changes nothing else. -/
def Obligations.ClearTurnsEveryPixelOff : Prop :=
  ∀ s : State, encodedAs .cls 0x00E0#16
    ∧ ∃ t, exec .cls s = .next t ∧ (∀ x y, pixel t.fb x y = false) ∧ t = { s with fb := t.fb }

/-- R221: drawing toggles exactly the pixels under the sprite's 1 bits and sets the flag to whether one of them was on;
with `n = 0` it draws nothing and clears the flag. The bit order is the spec's decision D15. -/
def Obligations.DrawTogglesThePixelsUnderTheSprite : Prop :=
  ∀ (s : State) (x y : RegNum) (n : BitVec 4),
    encodedAs (.drw x y n) (0xD000#16 ||| atX x ||| atY y ||| n.setWidth 16)
    ∧ (n.toNat = 0 ∨ s.i.toNat + n.toNat ≤ 0x1000 →
      ∃ t, exec (.drw x y n) s = .next t
        ∧ (∀ px py, spriteCovers s x y n px py → pixel t.fb px py = !pixel s.fb px py)
        ∧ (∀ px py, ¬ spriteCovers s x y n px py → pixel t.fb px py = pixel s.fb px py)
        ∧ ((∃ px py, spriteCovers s x y n px py ∧ pixel s.fb px py = true) → readReg t 0xF#4 = 1#8)
        ∧ ((¬ ∃ px py, spriteCovers s x y n px py ∧ pixel s.fb px py = true) → readReg t 0xF#4 = 0#8)
        ∧ regsKeptExcept [0xF#4] s t ∧ memoryKept s t ∧ t = { s with v := t.v, fb := t.fb })

/-- R224 (a): drawing the same sprite twice restores the buffer, and the second draw reports a collision exactly when the
first left one of the sprite's pixels on. Which pixels are the sprite's rests on the bit order, the spec's decision D15
(log entry 4). -/
def Obligations.DrawingTwiceRestoresTheBuffer : Prop :=
  ∀ (s t : State) (x y : RegNum) (n : BitVec 4), x ≠ 0xF#4 → y ≠ 0xF#4 →
    n.toNat = 0 ∨ s.i.toNat + n.toNat ≤ 0x1000 → exec (.drw x y n) s = .next t →
    ∃ u, exec (.drw x y n) t = .next u ∧ u.fb = s.fb
      ∧ (readReg u 0xF#4 = 1#8 ↔ ∃ px py, spriteCovers s x y n px py ∧ pixel t.fb px py = true)

/-- R224 (c): a draw right after a clear reports no collision, and the buffer is the wrapped sprite. Which pixels the
sprite covers rests on the bit order, the spec's decision D15 (log entry 4). -/
def Obligations.DrawAfterClearIsTheSprite : Prop :=
  ∀ (s t : State) (x y : RegNum) (n : BitVec 4), n.toNat = 0 ∨ s.i.toNat + n.toNat ≤ 0x1000 →
    exec .cls s = .next t →
    ∃ u, exec (.drw x y n) t = .next u ∧ readReg u 0xF#4 = 0#8
      ∧ ∀ px py, pixel u.fb px py = true ↔ spriteCovers s x y n px py

/-! ## Keys and timers -/

/-- R230, R231: the skips on a key, chosen by the low nibble of `V[x]` (the spec's decision D12), change only `PC`. -/
def Obligations.SkipsSampleTheKey : Prop :=
  ∀ (s : State) (x : RegNum),
    (encodedAs (.skp x) (0xE09E#16 ||| atX x)
      ∧ exec (.skp x) s = .next { s with
          pc := if s.key.getLsbD ((readReg s x).toNat % 16) = true then s.pc + 2#16 else s.pc })
    ∧ (encodedAs (.sknp x) (0xE0A1#16 ||| atX x)
      ∧ exec (.sknp x) s = .next { s with
          pc := if s.key.getLsbD ((readReg s x).toNat % 16) = true then s.pc else s.pc + 2#16 })

/-- R232, R236 (the spec's decision D13): the key wait arms on its first execution, stays while no key went down since the
last sample, and completes on the least key that did. -/
def Obligations.KeyWaitArmsStaysAndCompletes : Prop :=
  ∀ (s : State) (x : RegNum),
    encodedAs (.ldVxK x) (0xF00A#16 ||| atX x)
    ∧ (s.kwValid = false → exec (.ldVxK x) s = .next { s with
        kwPrev := s.key, kwValid := true, pc := s.pc - 2#16 })
    ∧ (s.kwValid = true → (∀ k, ¬ keyWentDown s k) → exec (.ldVxK x) s = .next { s with
        kwPrev := s.key, pc := s.pc - 2#16 })
    ∧ (s.kwValid = true → ∀ k : KeyNum, keyWentDown s k → (∀ j : KeyNum, j.toNat < k.toNat → ¬ keyWentDown s j) →
        ∃ t, exec (.ldVxK x) s = .next t ∧ (readReg t x).toNat = k.toNat
          ∧ regsKeptExcept [x] s t ∧ memoryKept s t ∧ t = { s with v := t.v, kwValid := false })

/-- R233, R234, R235: the moves to and from the timers. -/
def Obligations.TimerMoves : Prop :=
  ∀ (s : State) (x : RegNum),
    (encodedAs (.ldVxDt x) (0xF007#16 ||| atX x)
      ∧ ∃ t, exec (.ldVxDt x) s = .next t ∧ readReg t x = s.dt ∧ onlyRegsChange [x] s t)
    ∧ (encodedAs (.ldDtVx x) (0xF015#16 ||| atX x)
      ∧ exec (.ldDtVx x) s = .next { s with dt := readReg s x })
    ∧ (encodedAs (.ldStVx x) (0xF018#16 ||| atX x)
      ∧ exec (.ldStVx x) s = .next { s with st := readReg s x })

/-! ## Transactions and reset -/

/-- R131 (the spec's decisions D2 and D22): a tick lowers each timer by one, clamped at zero, whether or not the machine
is halted or waits, and changes nothing else. -/
def Obligations.TickLowersTheTimers : Prop :=
  ∀ (p : Config.Params) (s : State),
    ∃ t, transact p .tickTimers s = .next t ∧ t.dt.toNat = s.dt.toNat - 1 ∧ t.st.toNat = s.st.toNat - 1
      ∧ t = { s with dt := t.dt, st := t.st }

/-- R132 (the spec's decision D22): setting a key sets that key and changes nothing else. -/
def Obligations.SetKeySetsOneKey : Prop :=
  ∀ (p : Config.Params) (s : State) (k : KeyNum) (pressed : Bool),
    ∃ t, transact p (.setKey k pressed) s = .next t
      ∧ (∀ j : KeyNum, keyDown t j = if j = k then pressed else keyDown s j)
      ∧ t = { s with key := t.key }

/-- R133, R134, R268 (the spec's decisions D16, D21 and D24): the read-outs give the pixel, the sound line and the state,
and change nothing; the flat view of the buffer is row-major. -/
def Obligations.ReadOutsChangeNothing : Prop :=
  ∀ (p : Config.Params) (s : State) (x : Column) (y : Row),
    (transact p (.readFrameBuffer x y) s = .next s ∧ response (.readFrameBuffer x y) s = .bit (pixel s.fb x y))
    ∧ (transact p .readSound s = .next s ∧ (response .readSound s = .bit true ↔ 0 < s.st.toNat))
    ∧ (transact p .readState s = .next s ∧ response .readState s = .snapshot s)
    ∧ (flatFrameBuffer s)[64 * y.toNat + x.toNat]? = some (pixel s.fb x y)

/-- R291: constructing with an image that fits gives the font, the image and zeros in memory, and every other field at its
launch value, written out here. The zeros the document does not state are the spec's decision D3, those of `HALTED`, the
fault record and the key-wait latch its decisions D7, D8 and D13; that the number of the next draw goes on is the model's
choice (log entry 1). -/
def Obligations.ConstructBuildsTheLaunchState : Prop :=
  ∀ (p : Config.Params) (img : List Byte) (s : State), img.length ≤ 3584 →
    response (.construct img) s = .ok
    ∧ ∃ t, transact p (.construct img) s = .next t
      ∧ (∀ k : Fin 80, Memory.read t.mem k.val = p.font[k.val])
      ∧ (∀ a, 80 ≤ a → a < 0x200 → Memory.read t.mem a = 0x00#8)
      ∧ (∀ k b, img[k]? = some b → Memory.read t.mem (0x200 + k) = b)
      ∧ (∀ a, 0x200 + img.length ≤ a → a ≤ 0xFFF → Memory.read t.mem a = 0x00#8)
      ∧ t = {
          v := Vector.replicate 16 0x00#8, i := 0x0000#16, pc := 0x0200#16
          sp := 0#5, stack := Vector.replicate 16 0x0000#16, dt := 0x00#8, st := 0x00#8
          fb := Vector.replicate 32 0#64, key := 0#16, mem := t.mem
          halted := false, fcode := 0#3, fopc := 0x0000#16, fpc := 0x0000#16
          kwValid := false, kwPrev := 0#16, draws := s.draws }

/-- R292 (the spec's decision D20): an image too long loads nothing and leaves the machine halted with a capacity error
that every later step reports. -/
def Obligations.OversizedImageNeverStarts : Prop :=
  ∀ (p : Config.Params) (img : List Byte) (s : State), 3584 < img.length →
    response (.construct img) s = .capacityError
    ∧ ∃ t, transact p (.construct img) s = .next t
      ∧ t.halted = true ∧ t.fcode = 6#3 ∧ t.fopc = 0x0000#16 ∧ t.fpc = 0x0000#16
      ∧ (∀ a, 0x200 ≤ a → a ≤ 0xFFF → Memory.read t.mem a = 0x00#8)
      ∧ stepWith p t = .next t ∧ stepResponse t = .fault 6#3 0x0000#16 0x0000#16

/-- R38, R62, R63: the state after reset. `PC`, `SP`, the font's place and the zeros above the image are the document's;
the other zeros are the spec's decision D3, those of `HALTED`, the fault record and the key-wait latch its decisions D7,
D8 and D13, and the font bytes its decision D18 (log entry 2). That the host's reset is the launch of the empty image is
the model's choice (log entry 6). -/
def Obligations.ResetIsTheLaunchOfNoImage : Prop :=
  construct defaultParams [] = State.reset
  ∧ State.reset.pc = 0x0200#16 ∧ State.reset.sp.toNat = 0
  ∧ (∀ k : Fin 16, State.reset.stack[k.val] = 0x0000#16)
  ∧ State.reset.halted = false
  ∧ State.reset.fcode = 0#3 ∧ State.reset.fopc = 0x0000#16 ∧ State.reset.fpc = 0x0000#16
  ∧ State.reset.kwValid = false ∧ State.reset.kwPrev = 0#16
  ∧ (∀ x : RegNum, readReg State.reset x = 0x00#8) ∧ State.reset.i.toNat = 0
  ∧ State.reset.dt.toNat = 0 ∧ State.reset.st.toNat = 0
  ∧ (∀ x y, pixel State.reset.fb x y = false) ∧ (∀ k, keyDown State.reset k = false)
  ∧ (∀ d : Fin 16, ∀ r : Fin 5, Memory.read State.reset.mem (5 * d.val + r.val) = fontBytes[5 * d.val + r.val]?.getD 0)
  ∧ (∀ a, 80 ≤ a → a ≤ 0xFFF → Memory.read State.reset.mem a = 0x00#8)
  ∧ (Sys2Proof.core.reset : State) = State.reset
end

