-- ==== Sys2Proof/Laws/Decode.lean ====
section
/-! SUPPORT. The encoding's field laws: a word is its four nibbles, and each format gives back the fields it was made of. -/

namespace Sys2Proof

/-- Two neighbouring slices of a word joined. -/
theorem slices_append (w : Word) (lo m n k : Nat) (h : k = lo + n) :
    w.extractLsb' k m ++ w.extractLsb' lo n = w.extractLsb' lo (m + n) := by
  subst h
  refine BitVec.eq_of_getLsbD_eq (fun i hi => ?_)
  rw [BitVec.getLsbD_append]
  simp only [BitVec.getLsbD_extractLsb']
  split
  · rename_i h; rw [decide_eq_true h, decide_eq_true (show i < m + n by omega)]
  · rw [decide_eq_true (show i - n < m by omega), decide_eq_true (show i < m + n by omega),
      show lo + n + (i - n) = lo + i by omega]

theorem slice_all (w : Word) : w.extractLsb' 0 16 = w := by
  refine BitVec.eq_of_getLsbD_eq (fun i hi => ?_)
  rw [BitVec.getLsbD_extractLsb', decide_eq_true hi, Nat.zero_add, Bool.true_and]

/-- A word is its four nibbles. -/
theorem nibbles_append (w : Word) :
    (w.extractLsb' 12 4 ++ fieldX w) ++ (fieldY w ++ fieldN w) = w := by
  unfold fieldX fieldY fieldN
  rw [slices_append w 8 4 4 12 rfl, slices_append w 0 4 4 4 rfl]
  exact (slices_append w 0 8 8 8 rfl).trans (slice_all w)

/-- A word is its family, `x` and `kk`. -/
theorem family_x_kk_append (w : Word) : (w.extractLsb' 12 4 ++ fieldX w) ++ fieldKK w = w := by
  unfold fieldX fieldKK
  rw [slices_append w 8 4 4 12 rfl]
  exact (slices_append w 0 8 8 8 rfl).trans (slice_all w)

/-- A word is its family and `nnn`. -/
theorem family_nnn_append (w : Word) : w.extractLsb' 12 4 ++ fieldNNN w = w :=
  (slices_append w 0 4 12 12 rfl).trans (slice_all w)

/-- The two bytes of a word joined again. -/
theorem joinBytes_wordBytes (w : Word) : joinBytes (w.extractLsb' 8 8) (w.extractLsb' 0 8) = w :=
  (slices_append w 0 8 8 8 rfl).trans (slice_all w)

theorem decode_wordBytes_append (w : Word) (rest : List Byte) :
    decode (wordBytes w ++ rest) =
      match decodeWord w with
      | some i => .ok (i, rest)
      | none => .error (.illegal w) := by
  cases h : decodeWord w <;> simp [wordBytes, decode, joinBytes_wordBytes, h]

theorem decode_wordBytes (w : Word) :
    decode (wordBytes w) =
      match decodeWord w with
      | some i => .ok (i, [])
      | none => .error (.illegal w) := by
  simpa using decode_wordBytes_append w []

section Fields

variable (f : BitVec 4) (x y n : BitVec 4) (kk : Byte) (nnn : Addr12)

theorem family_encodeNNN : (encodeNNN f nnn).extractLsb' 12 4 = f := by
  unfold encodeNNN; exact BitVec.extractLsb'_append_eq_left

theorem nnn_encodeNNN : fieldNNN (encodeNNN f nnn) = nnn := by
  unfold fieldNNN encodeNNN; exact BitVec.extractLsb'_append_eq_right

theorem kk_encodeXKK : fieldKK (encodeXKK f x kk) = kk := by
  unfold fieldKK encodeXKK; exact BitVec.extractLsb'_append_eq_right

theorem family_encodeXKK : (encodeXKK f x kk).extractLsb' 12 4 = f := by
  unfold encodeXKK
  rw [BitVec.extractLsb'_append_eq_of_le (by omega)]
  exact BitVec.extractLsb'_append_eq_left

theorem x_encodeXKK : fieldX (encodeXKK f x kk) = x := by
  unfold fieldX encodeXKK
  rw [BitVec.extractLsb'_append_eq_of_le (by omega)]
  exact BitVec.extractLsb'_append_eq_right

theorem family_encodeXYN : (encodeXYN f x y n).extractLsb' 12 4 = f := by
  unfold encodeXYN
  rw [BitVec.extractLsb'_append_eq_of_le (by omega)]
  exact BitVec.extractLsb'_append_eq_left

theorem x_encodeXYN : fieldX (encodeXYN f x y n) = x := by
  unfold fieldX encodeXYN
  rw [BitVec.extractLsb'_append_eq_of_le (by omega)]
  exact BitVec.extractLsb'_append_eq_right

theorem y_encodeXYN : fieldY (encodeXYN f x y n) = y := by
  unfold fieldY encodeXYN
  rw [BitVec.extractLsb'_append_eq_of_add_le (by omega)]
  exact BitVec.extractLsb'_append_eq_left

theorem n_encodeXYN : fieldN (encodeXYN f x y n) = n := by
  unfold fieldN encodeXYN
  rw [BitVec.extractLsb'_append_eq_of_add_le (by omega)]
  exact BitVec.extractLsb'_append_eq_right

end Fields

/-! ## A word as the OR of its fields -/

theorem encodeNNN_eq_or (f : BitVec 4) (nnn : Addr12) :
    encodeNNN f nnn = (f.setWidth 16 <<< 12) ||| nnn.setWidth 16 := by
  refine BitVec.eq_of_getLsbD_eq fun k hk => ?_
  change (f ++ nnn : BitVec (4 + 12)).getLsbD k = _
  simp only [BitVec.getLsbD_append, BitVec.getLsbD_or, BitVec.getLsbD_shiftLeft, BitVec.getLsbD_setWidth]
  interval_cases k <;> simp

theorem encodeXKK_eq_or (f : BitVec 4) (x : RegNum) (kk : Byte) :
    encodeXKK f x kk = (f.setWidth 16 <<< 12) ||| (x.setWidth 16 <<< 8) ||| kk.setWidth 16 := by
  refine BitVec.eq_of_getLsbD_eq fun k hk => ?_
  change ((f ++ x) ++ kk : BitVec (4 + 4 + 8)).getLsbD k = _
  simp only [BitVec.getLsbD_append, BitVec.getLsbD_or, BitVec.getLsbD_shiftLeft, BitVec.getLsbD_setWidth]
  interval_cases k <;> simp

theorem encodeXYN_eq_or (f : BitVec 4) (x y : RegNum) (n : BitVec 4) :
    encodeXYN f x y n =
      (f.setWidth 16 <<< 12) ||| n.setWidth 16 ||| (x.setWidth 16 <<< 8) ||| (y.setWidth 16 <<< 4) := by
  refine BitVec.eq_of_getLsbD_eq fun k hk => ?_
  change ((f ++ x) ++ (y ++ n) : BitVec (4 + 4 + (4 + 4))).getLsbD k = _
  simp only [BitVec.getLsbD_append, BitVec.getLsbD_or, BitVec.getLsbD_shiftLeft, BitVec.getLsbD_setWidth]
  interval_cases k <;> simp

/-- No two rows of the opcode table overlap: each pair differs in a bit that both fix (R97). -/
theorem opcodeTable_disjoint :
    opcodeTable.Pairwise (fun r q => r.bits &&& q.mask ≠ q.bits &&& r.mask) := by
  decide +kernel

end Sys2Proof
end

