-- ==== Sys2Proof/Laws/State.lean ====
section
/-! SUPPORT. What each named update does to each field of the state, one lemma a field, so that no later proof unfolds
a record update. -/

namespace Sys2Proof.Machine

/-! `advance` -/

@[simp] theorem advance_v (s : State) :
    (advance s).v = s.v := rfl

@[simp] theorem advance_i (s : State) :
    (advance s).i = s.i := rfl

@[simp] theorem advance_pc (s : State) :
    (advance s).pc = s.pc + 2#16 := rfl

@[simp] theorem advance_sp (s : State) :
    (advance s).sp = s.sp := rfl

@[simp] theorem advance_stack (s : State) :
    (advance s).stack = s.stack := rfl

@[simp] theorem advance_dt (s : State) :
    (advance s).dt = s.dt := rfl

@[simp] theorem advance_st (s : State) :
    (advance s).st = s.st := rfl

@[simp] theorem advance_fb (s : State) :
    (advance s).fb = s.fb := rfl

@[simp] theorem advance_key (s : State) :
    (advance s).key = s.key := rfl

@[simp] theorem advance_mem (s : State) :
    (advance s).mem = s.mem := rfl

@[simp] theorem advance_halted (s : State) :
    (advance s).halted = s.halted := rfl

@[simp] theorem advance_fcode (s : State) :
    (advance s).fcode = s.fcode := rfl

@[simp] theorem advance_fopc (s : State) :
    (advance s).fopc = s.fopc := rfl

@[simp] theorem advance_fpc (s : State) :
    (advance s).fpc = s.fpc := rfl

@[simp] theorem advance_kwValid (s : State) :
    (advance s).kwValid = s.kwValid := rfl

@[simp] theorem advance_kwPrev (s : State) :
    (advance s).kwPrev = s.kwPrev := rfl

@[simp] theorem advance_draws (s : State) :
    (advance s).draws = s.draws := rfl

/-! `jumpTo` -/

@[simp] theorem jumpTo_v (a : Word) (s : State) :
    (jumpTo a s).v = s.v := rfl

@[simp] theorem jumpTo_i (a : Word) (s : State) :
    (jumpTo a s).i = s.i := rfl

@[simp] theorem jumpTo_pc (a : Word) (s : State) :
    (jumpTo a s).pc = a := rfl

@[simp] theorem jumpTo_sp (a : Word) (s : State) :
    (jumpTo a s).sp = s.sp := rfl

@[simp] theorem jumpTo_stack (a : Word) (s : State) :
    (jumpTo a s).stack = s.stack := rfl

@[simp] theorem jumpTo_dt (a : Word) (s : State) :
    (jumpTo a s).dt = s.dt := rfl

@[simp] theorem jumpTo_st (a : Word) (s : State) :
    (jumpTo a s).st = s.st := rfl

@[simp] theorem jumpTo_fb (a : Word) (s : State) :
    (jumpTo a s).fb = s.fb := rfl

@[simp] theorem jumpTo_key (a : Word) (s : State) :
    (jumpTo a s).key = s.key := rfl

@[simp] theorem jumpTo_mem (a : Word) (s : State) :
    (jumpTo a s).mem = s.mem := rfl

@[simp] theorem jumpTo_halted (a : Word) (s : State) :
    (jumpTo a s).halted = s.halted := rfl

@[simp] theorem jumpTo_fcode (a : Word) (s : State) :
    (jumpTo a s).fcode = s.fcode := rfl

@[simp] theorem jumpTo_fopc (a : Word) (s : State) :
    (jumpTo a s).fopc = s.fopc := rfl

@[simp] theorem jumpTo_fpc (a : Word) (s : State) :
    (jumpTo a s).fpc = s.fpc := rfl

@[simp] theorem jumpTo_kwValid (a : Word) (s : State) :
    (jumpTo a s).kwValid = s.kwValid := rfl

@[simp] theorem jumpTo_kwPrev (a : Word) (s : State) :
    (jumpTo a s).kwPrev = s.kwPrev := rfl

@[simp] theorem jumpTo_draws (a : Word) (s : State) :
    (jumpTo a s).draws = s.draws := rfl

/-! `skipIf` -/

@[simp] theorem skipIf_v (c : Bool) (s : State) :
    (skipIf c s).v = s.v := by cases c <;> rfl

@[simp] theorem skipIf_i (c : Bool) (s : State) :
    (skipIf c s).i = s.i := by cases c <;> rfl

@[simp] theorem skipIf_pc (c : Bool) (s : State) :
    (skipIf c s).pc = if c then s.pc + 2#16 else s.pc := by cases c <;> rfl

@[simp] theorem skipIf_sp (c : Bool) (s : State) :
    (skipIf c s).sp = s.sp := by cases c <;> rfl

@[simp] theorem skipIf_stack (c : Bool) (s : State) :
    (skipIf c s).stack = s.stack := by cases c <;> rfl

@[simp] theorem skipIf_dt (c : Bool) (s : State) :
    (skipIf c s).dt = s.dt := by cases c <;> rfl

@[simp] theorem skipIf_st (c : Bool) (s : State) :
    (skipIf c s).st = s.st := by cases c <;> rfl

@[simp] theorem skipIf_fb (c : Bool) (s : State) :
    (skipIf c s).fb = s.fb := by cases c <;> rfl

@[simp] theorem skipIf_key (c : Bool) (s : State) :
    (skipIf c s).key = s.key := by cases c <;> rfl

@[simp] theorem skipIf_mem (c : Bool) (s : State) :
    (skipIf c s).mem = s.mem := by cases c <;> rfl

@[simp] theorem skipIf_halted (c : Bool) (s : State) :
    (skipIf c s).halted = s.halted := by cases c <;> rfl

@[simp] theorem skipIf_fcode (c : Bool) (s : State) :
    (skipIf c s).fcode = s.fcode := by cases c <;> rfl

@[simp] theorem skipIf_fopc (c : Bool) (s : State) :
    (skipIf c s).fopc = s.fopc := by cases c <;> rfl

@[simp] theorem skipIf_fpc (c : Bool) (s : State) :
    (skipIf c s).fpc = s.fpc := by cases c <;> rfl

@[simp] theorem skipIf_kwValid (c : Bool) (s : State) :
    (skipIf c s).kwValid = s.kwValid := by cases c <;> rfl

@[simp] theorem skipIf_kwPrev (c : Bool) (s : State) :
    (skipIf c s).kwPrev = s.kwPrev := by cases c <;> rfl

@[simp] theorem skipIf_draws (c : Bool) (s : State) :
    (skipIf c s).draws = s.draws := by cases c <;> rfl

/-! `writeReg` -/

@[simp] theorem writeReg_v (x : RegNum) (b : Byte) (s : State) :
    (writeReg x b s).v = s.v.set x.toNat b x.isLt := rfl

@[simp] theorem writeReg_i (x : RegNum) (b : Byte) (s : State) :
    (writeReg x b s).i = s.i := rfl

@[simp] theorem writeReg_pc (x : RegNum) (b : Byte) (s : State) :
    (writeReg x b s).pc = s.pc := rfl

@[simp] theorem writeReg_sp (x : RegNum) (b : Byte) (s : State) :
    (writeReg x b s).sp = s.sp := rfl

@[simp] theorem writeReg_stack (x : RegNum) (b : Byte) (s : State) :
    (writeReg x b s).stack = s.stack := rfl

@[simp] theorem writeReg_dt (x : RegNum) (b : Byte) (s : State) :
    (writeReg x b s).dt = s.dt := rfl

@[simp] theorem writeReg_st (x : RegNum) (b : Byte) (s : State) :
    (writeReg x b s).st = s.st := rfl

@[simp] theorem writeReg_fb (x : RegNum) (b : Byte) (s : State) :
    (writeReg x b s).fb = s.fb := rfl

@[simp] theorem writeReg_key (x : RegNum) (b : Byte) (s : State) :
    (writeReg x b s).key = s.key := rfl

@[simp] theorem writeReg_mem (x : RegNum) (b : Byte) (s : State) :
    (writeReg x b s).mem = s.mem := rfl

@[simp] theorem writeReg_halted (x : RegNum) (b : Byte) (s : State) :
    (writeReg x b s).halted = s.halted := rfl

@[simp] theorem writeReg_fcode (x : RegNum) (b : Byte) (s : State) :
    (writeReg x b s).fcode = s.fcode := rfl

@[simp] theorem writeReg_fopc (x : RegNum) (b : Byte) (s : State) :
    (writeReg x b s).fopc = s.fopc := rfl

@[simp] theorem writeReg_fpc (x : RegNum) (b : Byte) (s : State) :
    (writeReg x b s).fpc = s.fpc := rfl

@[simp] theorem writeReg_kwValid (x : RegNum) (b : Byte) (s : State) :
    (writeReg x b s).kwValid = s.kwValid := rfl

@[simp] theorem writeReg_kwPrev (x : RegNum) (b : Byte) (s : State) :
    (writeReg x b s).kwPrev = s.kwPrev := rfl

@[simp] theorem writeReg_draws (x : RegNum) (b : Byte) (s : State) :
    (writeReg x b s).draws = s.draws := rfl

/-! `writeFlag` -/

@[simp] theorem writeFlag_v (f : Bool) (s : State) :
    (writeFlag f s).v = s.v.set flagReg.toNat (flagByte f) flagReg.isLt := rfl

@[simp] theorem writeFlag_i (f : Bool) (s : State) :
    (writeFlag f s).i = s.i := rfl

@[simp] theorem writeFlag_pc (f : Bool) (s : State) :
    (writeFlag f s).pc = s.pc := rfl

@[simp] theorem writeFlag_sp (f : Bool) (s : State) :
    (writeFlag f s).sp = s.sp := rfl

@[simp] theorem writeFlag_stack (f : Bool) (s : State) :
    (writeFlag f s).stack = s.stack := rfl

@[simp] theorem writeFlag_dt (f : Bool) (s : State) :
    (writeFlag f s).dt = s.dt := rfl

@[simp] theorem writeFlag_st (f : Bool) (s : State) :
    (writeFlag f s).st = s.st := rfl

@[simp] theorem writeFlag_fb (f : Bool) (s : State) :
    (writeFlag f s).fb = s.fb := rfl

@[simp] theorem writeFlag_key (f : Bool) (s : State) :
    (writeFlag f s).key = s.key := rfl

@[simp] theorem writeFlag_mem (f : Bool) (s : State) :
    (writeFlag f s).mem = s.mem := rfl

@[simp] theorem writeFlag_halted (f : Bool) (s : State) :
    (writeFlag f s).halted = s.halted := rfl

@[simp] theorem writeFlag_fcode (f : Bool) (s : State) :
    (writeFlag f s).fcode = s.fcode := rfl

@[simp] theorem writeFlag_fopc (f : Bool) (s : State) :
    (writeFlag f s).fopc = s.fopc := rfl

@[simp] theorem writeFlag_fpc (f : Bool) (s : State) :
    (writeFlag f s).fpc = s.fpc := rfl

@[simp] theorem writeFlag_kwValid (f : Bool) (s : State) :
    (writeFlag f s).kwValid = s.kwValid := rfl

@[simp] theorem writeFlag_kwPrev (f : Bool) (s : State) :
    (writeFlag f s).kwPrev = s.kwPrev := rfl

@[simp] theorem writeFlag_draws (f : Bool) (s : State) :
    (writeFlag f s).draws = s.draws := rfl

/-! `writeIndex` -/

@[simp] theorem writeIndex_v (a : Word) (s : State) :
    (writeIndex a s).v = s.v := rfl

@[simp] theorem writeIndex_i (a : Word) (s : State) :
    (writeIndex a s).i = a := rfl

@[simp] theorem writeIndex_pc (a : Word) (s : State) :
    (writeIndex a s).pc = s.pc := rfl

@[simp] theorem writeIndex_sp (a : Word) (s : State) :
    (writeIndex a s).sp = s.sp := rfl

@[simp] theorem writeIndex_stack (a : Word) (s : State) :
    (writeIndex a s).stack = s.stack := rfl

@[simp] theorem writeIndex_dt (a : Word) (s : State) :
    (writeIndex a s).dt = s.dt := rfl

@[simp] theorem writeIndex_st (a : Word) (s : State) :
    (writeIndex a s).st = s.st := rfl

@[simp] theorem writeIndex_fb (a : Word) (s : State) :
    (writeIndex a s).fb = s.fb := rfl

@[simp] theorem writeIndex_key (a : Word) (s : State) :
    (writeIndex a s).key = s.key := rfl

@[simp] theorem writeIndex_mem (a : Word) (s : State) :
    (writeIndex a s).mem = s.mem := rfl

@[simp] theorem writeIndex_halted (a : Word) (s : State) :
    (writeIndex a s).halted = s.halted := rfl

@[simp] theorem writeIndex_fcode (a : Word) (s : State) :
    (writeIndex a s).fcode = s.fcode := rfl

@[simp] theorem writeIndex_fopc (a : Word) (s : State) :
    (writeIndex a s).fopc = s.fopc := rfl

@[simp] theorem writeIndex_fpc (a : Word) (s : State) :
    (writeIndex a s).fpc = s.fpc := rfl

@[simp] theorem writeIndex_kwValid (a : Word) (s : State) :
    (writeIndex a s).kwValid = s.kwValid := rfl

@[simp] theorem writeIndex_kwPrev (a : Word) (s : State) :
    (writeIndex a s).kwPrev = s.kwPrev := rfl

@[simp] theorem writeIndex_draws (a : Word) (s : State) :
    (writeIndex a s).draws = s.draws := rfl

/-! `storeAtIndex` -/

@[simp] theorem storeAtIndex_v (bs : List Byte) (s : State) :
    (storeAtIndex bs s).v = s.v := rfl

@[simp] theorem storeAtIndex_i (bs : List Byte) (s : State) :
    (storeAtIndex bs s).i = s.i := rfl

@[simp] theorem storeAtIndex_pc (bs : List Byte) (s : State) :
    (storeAtIndex bs s).pc = s.pc := rfl

@[simp] theorem storeAtIndex_sp (bs : List Byte) (s : State) :
    (storeAtIndex bs s).sp = s.sp := rfl

@[simp] theorem storeAtIndex_stack (bs : List Byte) (s : State) :
    (storeAtIndex bs s).stack = s.stack := rfl

@[simp] theorem storeAtIndex_dt (bs : List Byte) (s : State) :
    (storeAtIndex bs s).dt = s.dt := rfl

@[simp] theorem storeAtIndex_st (bs : List Byte) (s : State) :
    (storeAtIndex bs s).st = s.st := rfl

@[simp] theorem storeAtIndex_fb (bs : List Byte) (s : State) :
    (storeAtIndex bs s).fb = s.fb := rfl

@[simp] theorem storeAtIndex_key (bs : List Byte) (s : State) :
    (storeAtIndex bs s).key = s.key := rfl

@[simp] theorem storeAtIndex_mem (bs : List Byte) (s : State) :
    (storeAtIndex bs s).mem = Memory.writeBytes s.mem s.i.toNat bs := rfl

@[simp] theorem storeAtIndex_halted (bs : List Byte) (s : State) :
    (storeAtIndex bs s).halted = s.halted := rfl

@[simp] theorem storeAtIndex_fcode (bs : List Byte) (s : State) :
    (storeAtIndex bs s).fcode = s.fcode := rfl

@[simp] theorem storeAtIndex_fopc (bs : List Byte) (s : State) :
    (storeAtIndex bs s).fopc = s.fopc := rfl

@[simp] theorem storeAtIndex_fpc (bs : List Byte) (s : State) :
    (storeAtIndex bs s).fpc = s.fpc := rfl

@[simp] theorem storeAtIndex_kwValid (bs : List Byte) (s : State) :
    (storeAtIndex bs s).kwValid = s.kwValid := rfl

@[simp] theorem storeAtIndex_kwPrev (bs : List Byte) (s : State) :
    (storeAtIndex bs s).kwPrev = s.kwPrev := rfl

@[simp] theorem storeAtIndex_draws (bs : List Byte) (s : State) :
    (storeAtIndex bs s).draws = s.draws := rfl

/-! `waitForKey` -/

@[simp] theorem waitForKey_v (s : State) :
    (waitForKey s).v = s.v := rfl

@[simp] theorem waitForKey_i (s : State) :
    (waitForKey s).i = s.i := rfl

@[simp] theorem waitForKey_pc (s : State) :
    (waitForKey s).pc = fetchAddress s := rfl

@[simp] theorem waitForKey_sp (s : State) :
    (waitForKey s).sp = s.sp := rfl

@[simp] theorem waitForKey_stack (s : State) :
    (waitForKey s).stack = s.stack := rfl

@[simp] theorem waitForKey_dt (s : State) :
    (waitForKey s).dt = s.dt := rfl

@[simp] theorem waitForKey_st (s : State) :
    (waitForKey s).st = s.st := rfl

@[simp] theorem waitForKey_fb (s : State) :
    (waitForKey s).fb = s.fb := rfl

@[simp] theorem waitForKey_key (s : State) :
    (waitForKey s).key = s.key := rfl

@[simp] theorem waitForKey_mem (s : State) :
    (waitForKey s).mem = s.mem := rfl

@[simp] theorem waitForKey_halted (s : State) :
    (waitForKey s).halted = s.halted := rfl

@[simp] theorem waitForKey_fcode (s : State) :
    (waitForKey s).fcode = s.fcode := rfl

@[simp] theorem waitForKey_fopc (s : State) :
    (waitForKey s).fopc = s.fopc := rfl

@[simp] theorem waitForKey_fpc (s : State) :
    (waitForKey s).fpc = s.fpc := rfl

@[simp] theorem waitForKey_kwValid (s : State) :
    (waitForKey s).kwValid = true := rfl

@[simp] theorem waitForKey_kwPrev (s : State) :
    (waitForKey s).kwPrev = s.key := rfl

@[simp] theorem waitForKey_draws (s : State) :
    (waitForKey s).draws = s.draws := rfl

/-! `acceptKey` -/

@[simp] theorem acceptKey_v (x : RegNum) (k : KeyNum) (s : State) :
    (acceptKey x k s).v = s.v.set x.toNat (k.setWidth 8) x.isLt := rfl

@[simp] theorem acceptKey_i (x : RegNum) (k : KeyNum) (s : State) :
    (acceptKey x k s).i = s.i := rfl

@[simp] theorem acceptKey_pc (x : RegNum) (k : KeyNum) (s : State) :
    (acceptKey x k s).pc = s.pc := rfl

@[simp] theorem acceptKey_sp (x : RegNum) (k : KeyNum) (s : State) :
    (acceptKey x k s).sp = s.sp := rfl

@[simp] theorem acceptKey_stack (x : RegNum) (k : KeyNum) (s : State) :
    (acceptKey x k s).stack = s.stack := rfl

@[simp] theorem acceptKey_dt (x : RegNum) (k : KeyNum) (s : State) :
    (acceptKey x k s).dt = s.dt := rfl

@[simp] theorem acceptKey_st (x : RegNum) (k : KeyNum) (s : State) :
    (acceptKey x k s).st = s.st := rfl

@[simp] theorem acceptKey_fb (x : RegNum) (k : KeyNum) (s : State) :
    (acceptKey x k s).fb = s.fb := rfl

@[simp] theorem acceptKey_key (x : RegNum) (k : KeyNum) (s : State) :
    (acceptKey x k s).key = s.key := rfl

@[simp] theorem acceptKey_mem (x : RegNum) (k : KeyNum) (s : State) :
    (acceptKey x k s).mem = s.mem := rfl

@[simp] theorem acceptKey_halted (x : RegNum) (k : KeyNum) (s : State) :
    (acceptKey x k s).halted = s.halted := rfl

@[simp] theorem acceptKey_fcode (x : RegNum) (k : KeyNum) (s : State) :
    (acceptKey x k s).fcode = s.fcode := rfl

@[simp] theorem acceptKey_fopc (x : RegNum) (k : KeyNum) (s : State) :
    (acceptKey x k s).fopc = s.fopc := rfl

@[simp] theorem acceptKey_fpc (x : RegNum) (k : KeyNum) (s : State) :
    (acceptKey x k s).fpc = s.fpc := rfl

@[simp] theorem acceptKey_kwValid (x : RegNum) (k : KeyNum) (s : State) :
    (acceptKey x k s).kwValid = false := rfl

@[simp] theorem acceptKey_kwPrev (x : RegNum) (k : KeyNum) (s : State) :
    (acceptKey x k s).kwPrev = s.kwPrev := rfl

@[simp] theorem acceptKey_draws (x : RegNum) (k : KeyNum) (s : State) :
    (acceptKey x k s).draws = s.draws := rfl

/-! `takeFault` -/

@[simp] theorem takeFault_v (p : Config.Params) (f : FaultKind) (o a : Word) (s : State) :
    (takeFault p f o a s).v = s.v := rfl

@[simp] theorem takeFault_i (p : Config.Params) (f : FaultKind) (o a : Word) (s : State) :
    (takeFault p f o a s).i = s.i := rfl

@[simp] theorem takeFault_pc (p : Config.Params) (f : FaultKind) (o a : Word) (s : State) :
    (takeFault p f o a s).pc = s.pc := rfl

@[simp] theorem takeFault_sp (p : Config.Params) (f : FaultKind) (o a : Word) (s : State) :
    (takeFault p f o a s).sp = s.sp := rfl

@[simp] theorem takeFault_stack (p : Config.Params) (f : FaultKind) (o a : Word) (s : State) :
    (takeFault p f o a s).stack = s.stack := rfl

@[simp] theorem takeFault_dt (p : Config.Params) (f : FaultKind) (o a : Word) (s : State) :
    (takeFault p f o a s).dt = s.dt := rfl

@[simp] theorem takeFault_st (p : Config.Params) (f : FaultKind) (o a : Word) (s : State) :
    (takeFault p f o a s).st = s.st := rfl

@[simp] theorem takeFault_fb (p : Config.Params) (f : FaultKind) (o a : Word) (s : State) :
    (takeFault p f o a s).fb = s.fb := rfl

@[simp] theorem takeFault_key (p : Config.Params) (f : FaultKind) (o a : Word) (s : State) :
    (takeFault p f o a s).key = s.key := rfl

@[simp] theorem takeFault_mem (p : Config.Params) (f : FaultKind) (o a : Word) (s : State) :
    (takeFault p f o a s).mem = s.mem := rfl

@[simp] theorem takeFault_halted (p : Config.Params) (f : FaultKind) (o a : Word) (s : State) :
    (takeFault p f o a s).halted = (s.halted || f.halts p) := rfl

@[simp] theorem takeFault_fcode (p : Config.Params) (f : FaultKind) (o a : Word) (s : State) :
    (takeFault p f o a s).fcode = f.code := rfl

@[simp] theorem takeFault_fopc (p : Config.Params) (f : FaultKind) (o a : Word) (s : State) :
    (takeFault p f o a s).fopc = o := rfl

@[simp] theorem takeFault_fpc (p : Config.Params) (f : FaultKind) (o a : Word) (s : State) :
    (takeFault p f o a s).fpc = a := rfl

@[simp] theorem takeFault_kwValid (p : Config.Params) (f : FaultKind) (o a : Word) (s : State) :
    (takeFault p f o a s).kwValid = s.kwValid := rfl

@[simp] theorem takeFault_kwPrev (p : Config.Params) (f : FaultKind) (o a : Word) (s : State) :
    (takeFault p f o a s).kwPrev = s.kwPrev := rfl

@[simp] theorem takeFault_draws (p : Config.Params) (f : FaultKind) (o a : Word) (s : State) :
    (takeFault p f o a s).draws = s.draws := rfl

/-! `tickTimers` -/

@[simp] theorem tickTimers_v (s : State) :
    (tickTimers s).v = s.v := rfl

@[simp] theorem tickTimers_i (s : State) :
    (tickTimers s).i = s.i := rfl

@[simp] theorem tickTimers_pc (s : State) :
    (tickTimers s).pc = s.pc := rfl

@[simp] theorem tickTimers_sp (s : State) :
    (tickTimers s).sp = s.sp := rfl

@[simp] theorem tickTimers_stack (s : State) :
    (tickTimers s).stack = s.stack := rfl

@[simp] theorem tickTimers_dt (s : State) :
    (tickTimers s).dt = tickDown s.dt := rfl

@[simp] theorem tickTimers_st (s : State) :
    (tickTimers s).st = tickDown s.st := rfl

@[simp] theorem tickTimers_fb (s : State) :
    (tickTimers s).fb = s.fb := rfl

@[simp] theorem tickTimers_key (s : State) :
    (tickTimers s).key = s.key := rfl

@[simp] theorem tickTimers_mem (s : State) :
    (tickTimers s).mem = s.mem := rfl

@[simp] theorem tickTimers_halted (s : State) :
    (tickTimers s).halted = s.halted := rfl

@[simp] theorem tickTimers_fcode (s : State) :
    (tickTimers s).fcode = s.fcode := rfl

@[simp] theorem tickTimers_fopc (s : State) :
    (tickTimers s).fopc = s.fopc := rfl

@[simp] theorem tickTimers_fpc (s : State) :
    (tickTimers s).fpc = s.fpc := rfl

@[simp] theorem tickTimers_kwValid (s : State) :
    (tickTimers s).kwValid = s.kwValid := rfl

@[simp] theorem tickTimers_kwPrev (s : State) :
    (tickTimers s).kwPrev = s.kwPrev := rfl

@[simp] theorem tickTimers_draws (s : State) :
    (tickTimers s).draws = s.draws := rfl

/-! `setKey` -/

@[simp] theorem setKey_v (k : KeyNum) (p : Bool) (s : State) :
    (setKey k p s).v = s.v := rfl

@[simp] theorem setKey_i (k : KeyNum) (p : Bool) (s : State) :
    (setKey k p s).i = s.i := rfl

@[simp] theorem setKey_pc (k : KeyNum) (p : Bool) (s : State) :
    (setKey k p s).pc = s.pc := rfl

@[simp] theorem setKey_sp (k : KeyNum) (p : Bool) (s : State) :
    (setKey k p s).sp = s.sp := rfl

@[simp] theorem setKey_stack (k : KeyNum) (p : Bool) (s : State) :
    (setKey k p s).stack = s.stack := rfl

@[simp] theorem setKey_dt (k : KeyNum) (p : Bool) (s : State) :
    (setKey k p s).dt = s.dt := rfl

@[simp] theorem setKey_st (k : KeyNum) (p : Bool) (s : State) :
    (setKey k p s).st = s.st := rfl

@[simp] theorem setKey_fb (k : KeyNum) (p : Bool) (s : State) :
    (setKey k p s).fb = s.fb := rfl

@[simp] theorem setKey_mem (k : KeyNum) (p : Bool) (s : State) :
    (setKey k p s).mem = s.mem := rfl

@[simp] theorem setKey_halted (k : KeyNum) (p : Bool) (s : State) :
    (setKey k p s).halted = s.halted := rfl

@[simp] theorem setKey_fcode (k : KeyNum) (p : Bool) (s : State) :
    (setKey k p s).fcode = s.fcode := rfl

@[simp] theorem setKey_fopc (k : KeyNum) (p : Bool) (s : State) :
    (setKey k p s).fopc = s.fopc := rfl

@[simp] theorem setKey_fpc (k : KeyNum) (p : Bool) (s : State) :
    (setKey k p s).fpc = s.fpc := rfl

@[simp] theorem setKey_kwValid (k : KeyNum) (p : Bool) (s : State) :
    (setKey k p s).kwValid = s.kwValid := rfl

@[simp] theorem setKey_kwPrev (k : KeyNum) (p : Bool) (s : State) :
    (setKey k p s).kwPrev = s.kwPrev := rfl

@[simp] theorem setKey_draws (k : KeyNum) (p : Bool) (s : State) :
    (setKey k p s).draws = s.draws := rfl

end Sys2Proof.Machine
end

