-- ==== Sys2Proof/Laws/Memory.lean ====
section
/-! SUPPORT. The memory operations: what a read gives after a write, and that every operation keeps the canonical form. -/

namespace Sys2Proof.Machine

@[simp] theorem Memory.read_nil (a : Nat) : Memory.read [] a = Memory.initial a := rfl

theorem Memory.read_cons (c : Host.Cell) (m : Memory) (a : Nat) :
    Memory.read (c :: m) a = if c.1 = a then c.2 else Memory.read m a := rfl

/-- An address below every listed one is unlisted. -/
theorem Memory.read_of_lt (m : Memory) (a : Nat) (h : ∀ c ∈ m, a < c.1) :
    Memory.read m a = Memory.initial a := by
  induction m with
  | nil => rfl
  | cons c m ih =>
    have hc : a < c.1 := h c (by simp)
    rw [Memory.read_cons, if_neg (by omega)]
    exact ih (fun d hd => h d (by simp [hd]))

theorem Memory.read_consEntry (m : Memory) (a k : Nat) (b : Byte) (h : ∀ c ∈ m, a < c.1) :
    Memory.read (Memory.cons a b m) k = if k = a then b else Memory.read m k := by
  unfold Memory.cons
  by_cases hb : b = Memory.initial a
  · rw [if_pos hb]
    by_cases hk : k = a
    · subst hk; rw [if_pos rfl, Memory.read_of_lt m k h, hb]
    · rw [if_neg hk]
  · rw [if_neg hb, Memory.read_cons]
    by_cases hk : k = a
    · subst hk; simp
    · rw [if_neg (fun e => hk e.symm), if_neg hk]

/-- What a read gives after a write, on memory whose addresses rise. -/
theorem Memory.read_write (m : Memory) (a k : Nat) (b : Byte) (h : m.Pairwise (fun c d => c.1 < d.1)) :
    Memory.read (Memory.write m a b) k = if k = a then b else Memory.read m k := by
  induction m with
  | nil => exact Memory.read_consEntry [] a k b (by simp)
  | cons c m ih =>
    obtain ⟨hc, hm⟩ := List.pairwise_cons.1 h
    unfold Memory.write
    by_cases h1 : a < c.1
    · rw [if_pos h1]
      refine Memory.read_consEntry (c :: m) a k b (fun d hd => ?_)
      rcases List.mem_cons.1 hd with rfl | hd
      · exact h1
      · exact Nat.lt_trans h1 (hc d hd)
    · rw [if_neg h1]
      by_cases h2 : a = c.1
      · rw [if_pos h2, Memory.read_consEntry m a k b (fun d hd => h2 ▸ hc d hd), Memory.read_cons]
        by_cases hk : k = a
        · simp [hk]
        · rw [if_neg hk, if_neg hk, if_neg (fun e => hk (by omega))]
      · rw [if_neg h2, Memory.read_cons, ih hm, Memory.read_cons]
        by_cases hk : k = a
        · subst hk; rw [if_neg (fun e => h2 e.symm), if_pos rfl, if_pos rfl]
        · rw [if_neg hk, if_neg hk]

/-- The addresses a write lists are old ones or the address written. -/
theorem Memory.mem_write (m : Memory) (a : Nat) (b : Byte) (c : Host.Cell) (h : c ∈ Memory.write m a b) :
    c ∈ m ∨ c = (a, b) ∧ b ≠ Memory.initial a := by
  induction m with
  | nil =>
    unfold Memory.write Memory.cons at h
    split at h
    · simp at h
    · rename_i hb; exact .inr ⟨by simpa using h, hb⟩
  | cons d m ih =>
    unfold Memory.write Memory.cons at h
    split at h
    · split at h
      · exact .inl h
      · rename_i hb
        rcases List.mem_cons.1 h with h | h
        · exact .inr ⟨h, hb⟩
        · exact .inl h
    · split at h
      · split at h
        · exact .inl (List.mem_cons_of_mem _ h)
        · rename_i hb
          rcases List.mem_cons.1 h with h | h
          · exact .inr ⟨h, hb⟩
          · exact .inl (List.mem_cons_of_mem _ h)
      · rcases List.mem_cons.1 h with rfl | h
        · exact .inl (by simp)
        · rcases ih h with h | h
          · exact .inl (List.mem_cons_of_mem _ h)
          · exact .inr h

theorem Memory.rising_consEntry (m : Memory) (a : Nat) (b : Byte) (h : m.Pairwise (fun c d => c.1 < d.1))
    (ha : ∀ c ∈ m, a < c.1) : (Memory.cons a b m).Pairwise (fun c d => c.1 < d.1) := by
  unfold Memory.cons
  split
  · exact h
  · exact List.pairwise_cons.2 ⟨ha, h⟩

theorem Memory.rising_write (m : Memory) (a : Nat) (b : Byte) (h : m.Pairwise (fun c d => c.1 < d.1)) :
    (Memory.write m a b).Pairwise (fun c d => c.1 < d.1) := by
  induction m with
  | nil => exact Memory.rising_consEntry [] a b h (by simp)
  | cons c m ih =>
    obtain ⟨hc, hm⟩ := List.pairwise_cons.1 h
    unfold Memory.write
    split
    · rename_i h1
      refine Memory.rising_consEntry (c :: m) a b h (fun d hd => ?_)
      rcases List.mem_cons.1 hd with rfl | hd
      · exact h1
      · exact Nat.lt_trans h1 (hc d hd)
    · split
      · rename_i h2; exact Memory.rising_consEntry m a b hm (fun d hd => h2 ▸ hc d hd)
      · rename_i h1 h2
        refine List.pairwise_cons.2 ⟨fun d hd => ?_, ih hm⟩
        rcases Memory.mem_write m a b d hd with hd | ⟨rfl, -⟩
        · exact hc d hd
        · change c.1 < a; omega

/-- A write inside memory keeps the canonical form. -/
theorem Memory.wf_write (m : Memory) (a : Nat) (b : Byte) (h : Memory.wf m) (ha : a < Config.memorySize) :
    Memory.wf (Memory.write m a b) := by
  refine ⟨Memory.rising_write m a b h.1, fun c hc => ?_⟩
  rcases Memory.mem_write m a b c hc with hc | ⟨rfl, hb⟩
  · exact h.2 c hc
  · exact ⟨ha, hb⟩

/-- The canonical form of a list of stores inside memory. -/
theorem Memory.wf_writeBytes (bs : List Byte) : ∀ (m : Memory) (a : Nat), Memory.wf m →
    a + bs.length ≤ Config.memorySize → Memory.wf (Memory.writeBytes m a bs) := by
  induction bs with
  | nil => intro m a h _; exact h
  | cons b bs ih =>
    intro m a h ha
    rw [List.length_cons] at ha
    exact ih _ _ (Memory.wf_write m a b h (by omega)) (by omega)

/-- What a read gives after a list of stores. -/
theorem Memory.read_writeBytes (bs : List Byte) : ∀ (m : Memory) (a k : Nat),
    m.Pairwise (fun c d => c.1 < d.1) →
    Memory.read (Memory.writeBytes m a bs) k =
      if a ≤ k ∧ k < a + bs.length then bs.getD (k - a) 0#8 else Memory.read m k := by
  induction bs with
  | nil => intro m a k _; rw [if_neg (by simp)]; rfl
  | cons b bs ih =>
    intro m a k h
    rw [Memory.writeBytes, ih _ _ _ (Memory.rising_write m a b h), Memory.read_write m a k b h, List.length_cons]
    by_cases hk : k = a
    · subst hk; rw [if_neg (by omega), if_pos rfl, if_pos (by omega)]; simp
    · by_cases hin : a + 1 ≤ k ∧ k < a + 1 + bs.length
      · rw [if_pos hin, if_pos (by omega), show k - a = (k - (a + 1)) + 1 by omega, List.getD_cons_succ]
      · rw [if_neg hin, if_neg hk, if_neg (by omega)]

theorem Memory.rising_writeBytes (bs : List Byte) : ∀ (m : Memory) (a : Nat),
    m.Pairwise (fun c d => c.1 < d.1) → (Memory.writeBytes m a bs).Pairwise (fun c d => c.1 < d.1) := by
  induction bs with
  | nil => intro m a h; exact h
  | cons b bs ih => intro m a h; exact ih _ _ (Memory.rising_write m a b h)

@[simp] theorem Memory.length_readBytes (m : Memory) (n : Nat) : ∀ a, (Memory.readBytes m a n).length = n := by
  induction n with
  | zero => intro a; rfl
  | succ n ih => intro a; rw [Memory.readBytes, List.length_cons, ih]

theorem Memory.getD_readBytes (m : Memory) (n : Nat) : ∀ a k, k < n →
    (Memory.readBytes m a n).getD k 0#8 = Memory.read m (a + k) := by
  induction n with
  | zero => intro a k h; omega
  | succ n ih =>
    intro a k h
    rw [Memory.readBytes]
    cases k with
    | zero => simp
    | succ k => rw [List.getD_cons_succ, ih _ _ (by omega), show a + 1 + k = a + (k + 1) by omega]

theorem dataInBounds_iff (base : Word) (count : Nat) :
    dataInBounds base count = true ↔ count = 0 ∨ base.toNat + count - 1 ≤ 0xFFF := by
  unfold dataInBounds
  rcases Nat.eq_zero_or_pos count with h | h
  · simp [h]
  · have hb : decide (count > 0) = true := by simpa using h
    rw [hb]; simp; omega

theorem launchMemory_wf (p : Config.Params) (img : List Byte) (h : WellFormed.image img = true) :
    Memory.wf (launchMemory p img) := by
  have h0 : Memory.wf [] := ⟨List.Pairwise.nil, by simp⟩
  have himg : img.length ≤ 3584 := of_decide_eq_true h
  refine Memory.wf_writeBytes img _ _ (Memory.wf_writeBytes _ _ _ h0 ?_) ?_
  · simp [Config.memorySize]
  · simp only [Config.memorySize, Config.programOrigin]; omega

end Sys2Proof.Machine
end

