-- ==== Sys2Proof/Laws/Display.lean ====
section
/-! SUPPORT. What drawing does, said once: a drawing is the list of the pixels under the sprite's 1 bits, each toggled
once; the buffer changes in exactly those pixels and the collision is that one of them was on. -/

namespace Sys2Proof.Machine

theorem pixel_togglePixel (fb : FrameBuffer) (x px : Column) (y py : Row) :
    pixel (togglePixel fb x y) px py = (pixel fb px py ^^ (decide (px = x) && decide (py = y))) := by
  unfold pixel togglePixel
  by_cases hy : py = y
  · subst hy
    rw [Vector.getElem_set_self]
    have hx : (1#64 <<< x.toNat).getLsbD px.toNat = decide (px = x) := by
      have h1 := px.isLt
      have h2 := x.isLt
      rw [BitVec.getLsbD_shiftLeft, BitVec.getLsbD_one]
      by_cases h : px = x
      · subst h; simp; omega
      · have : px.toNat ≠ x.toNat := fun e => h (BitVec.eq_of_toNat_eq e)
        simp only [h, decide_false]
        by_cases hlt : px.toNat < x.toNat
        · simp [hlt]
        · have : ¬ px.toNat - x.toNat = 0 := by omega
          simp [this]
    rw [BitVec.getLsbD_xor, hx]
    simp
  · rw [Vector.getElem_set_ne]
    · simp [hy]
    · exact fun e => hy (BitVec.eq_of_toNat_eq e.symm)

@[simp] theorem pixel_clearBuffer (x : Column) (y : Row) : pixel clearBuffer x y = false := by
  unfold pixel clearBuffer
  rw [Vector.getElem_replicate]
  simp

/-- Two buffers with the same pixels are equal. -/
theorem frameBuffer_ext (a b : FrameBuffer) (h : ∀ x y, pixel a x y = pixel b x y) : a = b := by
  refine Vector.ext (fun r hr => BitVec.eq_of_getLsbD_eq (fun c hc => ?_))
  have := h (BitVec.ofNat 6 c) (BitVec.ofNat 5 r)
  unfold pixel at this
  simpa [Nat.mod_eq_of_lt hc, Nat.mod_eq_of_lt hr] using this

/-- Toggle the pixels of a list, noting collisions. -/
def drawPoints (d : Drawing) (pts : List (Column × Row)) : Drawing :=
  pts.foldl (fun d p => drawPixel d p.1 p.2) d

/-- The pixels under the 1 bits of one sprite row. -/
def columnPoints (x0 : Byte) (y : Row) (bits : Byte) (cols : List Nat) : List (Column × Row) :=
  (cols.filter (spriteBit bits)).map (fun c => (wrapColumn x0 c, y))

/-- The pixels under the 1 bits of a sprite whose first row is number `row`. -/
def spritePoints (x0 y0 : Byte) (row : Nat) (sprite : List Byte) : List (Column × Row) :=
  match sprite with
  | [] => []
  | bits :: rest => columnPoints x0 (wrapRow y0 row) bits spriteColumns ++ spritePoints x0 y0 (row + 1) rest

theorem drawColumns_eq (x0 : Byte) (y : Row) (bits : Byte) (cols : List Nat) : ∀ d : Drawing,
    drawColumns x0 y bits cols d = drawPoints d (columnPoints x0 y bits cols) := by
  induction cols with
  | nil => intro d; rfl
  | cons c cols ih =>
    intro d
    rw [drawColumns, ih]
    by_cases h : spriteBit bits c = true
    · rw [if_pos h]; simp [columnPoints, drawPoints, List.filter_cons_of_pos h]
    · rw [if_neg h]; simp [columnPoints, List.filter_cons_of_neg h]

theorem drawRows_eq (x0 y0 : Byte) (sprite : List Byte) : ∀ (row : Nat) (d : Drawing),
    drawRows x0 y0 row sprite d = drawPoints d (spritePoints x0 y0 row sprite) := by
  induction sprite with
  | nil => intro row d; rfl
  | cons bits rest ih =>
    intro row d
    rw [drawRows, ih, drawColumns_eq, spritePoints]
    simp [drawPoints]

/-- What toggling a list of distinct pixels does. -/
theorem drawPoints_spec (pts : List (Column × Row)) : ∀ d : Drawing, pts.Nodup →
    (∀ x y, pixel (drawPoints d pts).fb x y = (pixel d.fb x y ^^ decide ((x, y) ∈ pts)))
    ∧ ((drawPoints d pts).collision = true ↔ d.collision = true ∨ ∃ p ∈ pts, pixel d.fb p.1 p.2 = true) := by
  induction pts with
  | nil => intro d _; simp [drawPoints]
  | cons p pts ih =>
    intro d h
    obtain ⟨hp, hn⟩ := List.nodup_cons.1 h
    obtain ⟨h1, h2⟩ := ih (drawPixel d p.1 p.2) hn
    have step : drawPoints d (p :: pts) = drawPoints (drawPixel d p.1 p.2) pts := rfl
    rw [step]
    refine ⟨fun x y => ?_, ?_⟩
    · rw [h1]
      simp only [drawPixel, pixel_togglePixel, List.mem_cons]
      by_cases hxy : (x, y) = p
      · subst hxy; simp [hp]
      · have : (decide (x = p.1) && decide (y = p.2)) = false := by
          rw [Bool.and_eq_false_iff]
          by_contra hc
          push Not at hc
          simp only [ne_eq, decide_eq_false_iff_not, not_not] at hc
          exact hxy (Prod.ext hc.1 hc.2)
        simp [this, hxy]
    · have hrest : (∃ q ∈ pts, pixel (drawPixel d p.1 p.2).fb q.1 q.2 = true)
          ↔ (∃ q ∈ pts, pixel d.fb q.1 q.2 = true) := by
        refine exists_congr (fun q => and_congr_right (fun hq => ?_))
        have hne : q ≠ p := fun e => hp (e ▸ hq)
        have : (decide (q.1 = p.1) && decide (q.2 = p.2)) = false := by
          rw [Bool.and_eq_false_iff]
          by_contra hc
          push Not at hc
          simp only [ne_eq, decide_eq_false_iff_not, not_not] at hc
          exact hne (Prod.ext hc.1 hc.2)
        simp only [drawPixel]
        rw [pixel_togglePixel, this, Bool.xor_false]
      rw [h2, hrest]
      simp [drawPixel, or_assoc]

theorem toNat_wrapColumn (x0 : Byte) (c : Nat) : (wrapColumn x0 c).toNat = (x0.toNat + c) % 64 := by
  simp [wrapColumn]

theorem toNat_wrapRow (y0 : Byte) (r : Nat) : (wrapRow y0 r).toNat = (y0.toNat + r) % 32 := by
  simp [wrapRow]

theorem mem_columnPoints (x0 : Byte) (y py : Row) (px : Column) (bits : Byte) :
    (px, py) ∈ columnPoints x0 y bits spriteColumns
      ↔ (∃ c < 8, bits.getLsbD (7 - c) = true ∧ px.toNat = (x0.toNat + c) % 64) ∧ py = y := by
  unfold columnPoints
  simp only [List.mem_map, List.mem_filter, Prod.mk.injEq]
  constructor
  · rintro ⟨c, ⟨hc, hb⟩, rfl, rfl⟩
    have : c < 8 := by simp [spriteColumns] at hc; omega
    exact ⟨⟨c, this, hb, toNat_wrapColumn x0 c⟩, rfl⟩
  · rintro ⟨⟨c, hc, hb, hp⟩, rfl⟩
    refine ⟨c, ⟨?_, hb⟩, BitVec.eq_of_toNat_eq (by rw [toNat_wrapColumn, hp]), rfl⟩
    simp [spriteColumns]; omega

theorem mem_spritePoints (x0 y0 : Byte) (px : Column) (py : Row) (sprite : List Byte) : ∀ row : Nat,
    ((px, py) ∈ spritePoints x0 y0 row sprite
      ↔ ∃ k < sprite.length, ∃ c < 8, (sprite.getD k 0#8).getLsbD (7 - c) = true
          ∧ px.toNat = (x0.toNat + c) % 64 ∧ py.toNat = (y0.toNat + (row + k)) % 32) := by
  induction sprite with
  | nil => intro row; simp [spritePoints]
  | cons bits rest ih =>
    intro row
    rw [spritePoints, List.mem_append, mem_columnPoints, ih]
    constructor
    · rintro (⟨⟨c, hc, hb, hp⟩, rfl⟩ | ⟨k, hk, c, hc, hb, hp, hr⟩)
      · exact ⟨0, by simp, c, hc, by simpa using hb, hp, by rw [toNat_wrapRow, Nat.add_zero]⟩
      · exact ⟨k + 1, by simpa using hk, c, hc, by simpa using hb, hp,
          by rw [hr, show row + 1 + k = row + (k + 1) by omega]⟩
    · rintro ⟨k, hk, c, hc, hb, hp, hr⟩
      cases k with
      | zero =>
        refine .inl ⟨⟨c, hc, by simpa using hb, hp⟩, BitVec.eq_of_toNat_eq ?_⟩
        rw [toNat_wrapRow, hr, Nat.add_zero]
      | succ k =>
        exact .inr ⟨k, by simpa using hk, c, hc, by simpa using hb, hp,
          by rw [hr, show row + 1 + k = row + (k + 1) by omega]⟩

theorem nodup_columnPoints (x0 : Byte) (y : Row) (bits : Byte) :
    (columnPoints x0 y bits spriteColumns).Nodup := by
  unfold columnPoints
  refine List.Nodup.map_on ?_ (List.Nodup.filter _ (by decide))
  intro a ha b hb h
  have ha8 : a < 8 := by simp [spriteColumns] at ha; omega
  have hb8 : b < 8 := by simp [spriteColumns] at hb; omega
  have := congrArg (fun p : Column × Row => p.1.toNat) h
  simp only [toNat_wrapColumn] at this
  omega

/-- A sprite of at most 32 rows never overlaps itself (R221). -/
theorem nodup_spritePoints (x0 y0 : Byte) (sprite : List Byte) : ∀ row : Nat, sprite.length ≤ 32 →
    (spritePoints x0 y0 row sprite).Nodup := by
  induction sprite with
  | nil => intro row _; exact List.nodup_nil
  | cons bits rest ih =>
    intro row h
    rw [List.length_cons] at h
    rw [spritePoints]
    refine List.Nodup.append (nodup_columnPoints _ _ _) (ih _ (by omega)) ?_
    rintro ⟨px, py⟩ h1 h2
    obtain ⟨-, rfl⟩ := (mem_columnPoints _ _ _ _ _).1 h1
    obtain ⟨k, hk, c, -, -, -, hr⟩ := (mem_spritePoints _ _ _ _ _ _).1 h2
    rw [toNat_wrapRow] at hr
    omega

/-- What drawing a sprite of at most 15 rows does. -/
theorem drawSprite_spec (x0 y0 : Byte) (sprite : List Byte) (fb : FrameBuffer) (h : sprite.length ≤ 15) :
    (∀ x y, pixel (drawSprite x0 y0 sprite fb).fb x y
        = (pixel fb x y ^^ decide ((x, y) ∈ spritePoints x0 y0 0 sprite)))
    ∧ ((drawSprite x0 y0 sprite fb).collision = true
        ↔ ∃ p ∈ spritePoints x0 y0 0 sprite, pixel fb p.1 p.2 = true) := by
  unfold drawSprite
  rw [drawRows_eq]
  have := drawPoints_spec (spritePoints x0 y0 0 sprite) { fb := fb, collision := false }
    (nodup_spritePoints x0 y0 sprite 0 (by omega))
  simpa using this

end Sys2Proof.Machine
end

