-- ==== Sys2Proof/Laws/Registers.lean ====
section
/-! SUPPORT. Registers and operands: what a register reads after a write, and what the register lists hold. -/

namespace Sys2Proof.Machine

theorem regNum_ext (x y : RegNum) (h : x.toNat = y.toNat) : x = y := BitVec.eq_of_toNat_eq h

theorem readReg_writeReg (s : State) (x y : RegNum) (b : Byte) :
    readReg (writeReg x b s) y = if y = x then b else readReg s y := by
  unfold readReg
  simp only [writeReg_v]
  by_cases h : y = x
  · subst h; simp
  · rw [if_neg h, Vector.getElem_set_ne]
    exact fun e => h (regNum_ext _ _ e.symm)

@[simp] theorem readReg_writeReg_same (s : State) (x : RegNum) (b : Byte) :
    readReg (writeReg x b s) x = b := by rw [readReg_writeReg, if_pos rfl]

theorem readReg_writeReg_ne (s : State) (x y : RegNum) (b : Byte) (h : y ≠ x) :
    readReg (writeReg x b s) y = readReg s y := by rw [readReg_writeReg, if_neg h]

theorem readReg_writeFlag (s : State) (y : RegNum) (f : Bool) :
    readReg (writeFlag f s) y = if y = flagReg then flagByte f else readReg s y :=
  readReg_writeReg s flagReg y (flagByte f)

/-- A register reads the same in two states with the same registers. -/
theorem readReg_congr (s t : State) (y : RegNum) (h : t.v = s.v) : readReg t y = readReg s y := by
  unfold readReg; simp only [h]

@[simp] theorem length_regsUpTo (s : State) (x : RegNum) : (regsUpTo s x).length = x.toNat + 1 := by
  have := x.isLt
  simp [regsUpTo]; omega

theorem getD_regsUpTo (s : State) (x y : RegNum) (h : y.toNat ≤ x.toNat) :
    (regsUpTo s x).getD y.toNat 0#8 = readReg s y := by
  have hy := y.isLt
  unfold regsUpTo readReg
  rw [List.getD_eq_getElem?_getD, List.getElem?_take_of_lt (by omega), Vector.getElem?_toList,
    Vector.getElem?_eq_getElem (by omega)]
  rfl

/-- What a register list load leaves in each register. -/
theorem getElem_loadRegs (bs : List Byte) : ∀ (v : Vector Byte 16) (k j : Nat) (hj : j < 16),
    (loadRegs v k bs)[j] = if k ≤ j ∧ j < k + bs.length then bs.getD (j - k) 0#8 else v[j] := by
  induction bs with
  | nil => intro v k j hj; rw [if_neg (by simp)]; rfl
  | cons b bs ih =>
    intro v k j hj
    rw [loadRegs, ih, List.length_cons]
    by_cases hk : j = k
    · subst hk; rw [if_neg (by omega), if_pos (by omega)]; simp
    · by_cases hin : k + 1 ≤ j ∧ j < k + 1 + bs.length
      · rw [if_pos hin, if_pos (by omega), show j - k = (j - (k + 1)) + 1 by omega, List.getD_cons_succ]
      · rw [if_neg hin, if_neg (by omega), Vector.getElem_setIfInBounds_ne hj (fun e => hk e.symm)]

/-! ## Arithmetic of the flags -/

theorem toNat_wideSum (a b : Byte) : (wideSum a b).toNat = a.toNat + b.toNat := by
  have ha := a.isLt
  have hb := b.isLt
  simp only [wideSum, BitVec.toNat_add, BitVec.toNat_setWidth]
  omega

theorem toNat_sumByte (a b : Byte) : ((wideSum a b).extractLsb' 0 8).toNat = (a.toNat + b.toNat) % 256 := by
  simp [BitVec.extractLsb'_toNat, toNat_wideSum]

theorem carry_eq (a b : Byte) : carry a b = decide (a.toNat + b.toNat > 255) := by
  have ha := a.isLt
  have hb := b.isLt
  unfold carry
  rw [BitVec.getLsbD, toNat_wideSum, Nat.testBit_eq_decide_div_mod_eq]
  rcases Nat.lt_or_ge (a.toNat + b.toNat) 256 with h | h
  · rw [Nat.div_eq_of_lt (by omega)]; simp; omega
  · rw [show (a.toNat + b.toNat) / 2 ^ 8 = 1 by omega]; simp; omega

theorem toNat_flagByte (f : Bool) : (flagByte f).toNat = if f then 1 else 0 := by cases f <;> rfl

end Sys2Proof.Machine
end

