-- ==== Sys2Proof/Laws/Exec.lean ====
section
/-! SUPPORT. What the shared operations and the sequencer can do, said once: the form of a fault, the stack operations
where the slot exists, the meanings that check before they write, and the cases of a `Step`. -/

namespace Sys2Proof.Machine

/-- An instruction's fault is a next state (R256). -/
theorem faultIn_next (f : FaultKind) (i : Instr) (s : State) :
    faultIn f i s = .next (takeFault defaultParams f (encodeWord i) (fetchAddress s) s) := rfl

/-- Every fault but a decode fault halts, whatever the parameters (R257). -/
theorem halts_of_ne_decodeFault (p : Config.Params) (f : FaultKind) (h : f ≠ .decodeFault) : f.halts p = true := by
  cases f <;> first | rfl | exact absurd rfl h

theorem pushReturn_of_lt (s : State) (h : s.sp.toNat < 16) :
    pushReturn s = some { s with stack := s.stack.set s.sp.toNat s.pc h, sp := s.sp + 1#5 } := dif_pos h

theorem toNat_sp_sub_one (s : State) (h : 0 < s.sp.toNat) : (s.sp - 1#5).toNat = s.sp.toNat - 1 := by
  have := s.sp.isLt
  rw [BitVec.toNat_sub]
  simp
  omega

theorem popReturn_of_pos (s : State) (h0 : 0 < s.sp.toNat) (h : s.sp.toNat ≤ 16) :
    popReturn s = some { s with
      sp := s.sp - 1#5
      pc := s.stack[(s.sp - 1#5).toNat]'(by rw [toNat_sp_sub_one s h0]; omega) } :=
  dif_pos (by rw [toNat_sp_sub_one s h0]; omega)

/-- A call below full stack. -/
theorem execCall_of_lt (nnn : Addr12) (s : State) (h : s.sp.toNat < 16) :
    execCall nnn s = .next { s with
      stack := s.stack.set s.sp.toNat s.pc h, sp := s.sp + 1#5, pc := wideAddr nnn } := by
  have h16 : s.sp ≠ 16#5 := by rintro e; rw [e] at h; exact absurd h (by decide)
  unfold execCall
  rw [if_neg h16, pushReturn_of_lt s h]
  rfl

/-- A return above empty stack. -/
theorem execRet_of_pos (s : State) (h0 : 0 < s.sp.toNat) (h : s.sp.toNat ≤ 16) :
    execRet s = .next { s with
      sp := s.sp - 1#5
      pc := s.stack[(s.sp - 1#5).toNat]'(by rw [toNat_sp_sub_one s h0]; omega) } := by
  have hne : s.sp ≠ 0#5 := by rintro e; rw [e] at h0; exact absurd h0 (by decide)
  unfold execRet
  rw [if_neg hne, popReturn_of_pos s h0 h]
  rfl

/-- A call: at full stack the overflow, below it the push, and no next state where no slot exists. -/
theorem execCall_cases {nnn : Addr12} {s t : State} (h : execCall nnn s = .next t) :
    (s.sp = 16#5 ∧ t = takeFault defaultParams .stackOverflow (encodeWord (.call nnn)) (fetchAddress s) s)
    ∨ ∃ hs : s.sp.toNat < 16, t = { s with
        stack := s.stack.set s.sp.toNat s.pc hs, sp := s.sp + 1#5, pc := wideAddr nnn } := by
  unfold execCall at h
  by_cases h16 : s.sp = 16#5
  · rw [if_pos h16, faultIn_next] at h
    exact .inl ⟨h16, by injection h with h; exact h.symm⟩
  · rw [if_neg h16] at h
    by_cases hs : s.sp.toNat < 16
    · rw [pushReturn_of_lt s hs] at h
      exact .inr ⟨hs, by injection h with h; exact h.symm⟩
    · rw [show pushReturn s = none from dif_neg hs] at h
      exact absurd h (by simp [orNoSlot])

/-- A return: with empty stack the underflow, else the pop, and no next state where no slot exists. -/
theorem execRet_cases {s t : State} (h : execRet s = .next t) :
    (s.sp = 0#5 ∧ t = takeFault defaultParams .stackUnderflow (encodeWord .ret) (fetchAddress s) s)
    ∨ (s.sp ≠ 0#5 ∧ ∃ hs : (s.sp - 1#5).toNat < 16, t = { s with
        sp := s.sp - 1#5, pc := s.stack[(s.sp - 1#5).toNat] }) := by
  unfold execRet at h
  by_cases h0 : s.sp = 0#5
  · rw [if_pos h0, faultIn_next] at h
    exact .inl ⟨h0, by injection h with h; exact h.symm⟩
  · rw [if_neg h0] at h
    by_cases hs : (s.sp - 1#5).toNat < 16
    · rw [show popReturn s = some { s with sp := s.sp - 1#5, pc := s.stack[(s.sp - 1#5).toNat] } from dif_pos hs] at h
      exact .inr ⟨h0, hs, by injection h with h; exact h.symm⟩
    · rw [show popReturn s = none from dif_neg hs] at h
      exact absurd h (by simp [orNoSlot])

/-- The cases of a `Step` that answers a next state (R123). -/
theorem stepWith_cases {p : Config.Params} {s t : State} (h : stepWith p s = .next t) :
    (s.halted = true ∧ t = s)
    ∨ (s.halted = false ∧ fetchWord s = none ∧ t = takeFault p .outOfBoundsFetch 0x0000#16 s.pc s)
    ∨ (s.halted = false ∧ ∃ w, fetchWord s = some w ∧ decodeWord w = none
        ∧ t = takeFault p .decodeFault w s.pc (advance s))
    ∨ (s.halted = false ∧ ∃ w i, fetchWord s = some w ∧ decodeWord w = some i ∧ exec i (advance s) = .next t) := by
  unfold stepWith at h
  by_cases hh : s.halted = true
  · rw [if_pos hh] at h
    exact .inl ⟨hh, by injection h with h; exact h.symm⟩
  · rw [if_neg hh] at h
    have hf : s.halted = false := by simpa using hh
    cases hw : fetchWord s with
    | none =>
      rw [hw] at h
      exact .inr (.inl ⟨hf, rfl, by injection h with h; exact h.symm⟩)
    | some w =>
      rw [hw] at h
      simp only at h
      cases hi : decodeWord w with
      | none =>
        rw [hi] at h
        exact .inr (.inr (.inl ⟨hf, w, rfl, hi, by injection h with h; exact h.symm⟩))
      | some i =>
        rw [hi] at h
        exact .inr (.inr (.inr ⟨hf, w, i, rfl, hi, h⟩))

theorem fetchWord_eq_some {s : State} {w : Word} (h : fetchWord s = some w) :
    s.pc.toNat ≤ 0xFFE
    ∧ w = joinBytes (Memory.read s.mem s.pc.toNat) (Memory.read s.mem (s.pc.toNat + 1)) := by
  unfold fetchWord at h
  split at h
  · exact absurd h (by simp)
  · refine ⟨by omega, ?_⟩
    injection h with h
    exact h.symm

theorem fetchWord_of_le {s : State} (h : s.pc.toNat ≤ 0xFFE) :
    fetchWord s = some (joinBytes (Memory.read s.mem s.pc.toNat) (Memory.read s.mem (s.pc.toNat + 1))) :=
  if_neg (by omega)

/-- The advance does not wrap where a fetch succeeds (R26). -/
theorem toNat_advance_pc {s : State} (h : s.pc.toNat ≤ 0xFFE) : (advance s).pc.toNat = s.pc.toNat + 2 := by
  simp only [advance_pc, BitVec.toNat_add]
  simp
  omega

/-- A meaning sees its fetch address again (R125). -/
@[simp] theorem fetchAddress_advance (s : State) : fetchAddress (advance s) = s.pc := by
  simp [fetchAddress]

/-- An instruction that raises a fault takes it, and it is never a decode or a fetch fault (R261). -/
theorem exec_of_instrFault {i : Instr} {s : State} {f : FaultKind} (hf : instrFault i s = some f) :
    exec i s = faultIn f i s ∧ f ≠ .decodeFault ∧ f ≠ .outOfBoundsFetch := by
  cases i <;> simp only [instrFault, dataFault, reduceCtorEq] at hf
  all_goals
    split_ifs at hf with g
    simp only [Option.some.injEq] at hf
    subst hf
    simp [exec, execCall, execRet, execDrw, execLdB, execLdMemVx, execLdVxMem, g]

/-- An instruction in bounds runs as if there were no check. -/
theorem execDrw_of_inBounds (x y : RegNum) (n : BitVec 4) (s : State) (h : dataInBounds s.i n.toNat = true) :
    execDrw x y n s =
      .next (writeFlag (drawSprite (readReg s x) (readReg s y) (bytesAtIndex s n.toNat) s.fb).collision
        { s with fb := (drawSprite (readReg s x) (readReg s y) (bytesAtIndex s n.toNat) s.fb).fb }) := by
  unfold execDrw; rw [if_pos h]

theorem execLdB_of_inBounds (x : RegNum) (s : State) (h : dataInBounds s.i 3 = true) :
    execLdB x s = .next (storeAtIndex (decimalDigits (readReg s x)) s) := by
  unfold execLdB; rw [if_pos h]

theorem execLdMemVx_of_inBounds (x : RegNum) (s : State) (h : dataInBounds s.i (x.toNat + 1) = true) :
    execLdMemVx x s = .next (storeAtIndex (regsUpTo s x) s) := by
  unfold execLdMemVx; rw [if_pos h]

theorem execLdVxMem_of_inBounds (x : RegNum) (s : State) (h : dataInBounds s.i (x.toNat + 1) = true) :
    execLdVxMem x s = .next { s with v := loadRegs s.v 0 (bytesAtIndex s (x.toNat + 1)) } := by
  unfold execLdVxMem; rw [if_pos h]

end Sys2Proof.Machine
end

