-- ==== Sys2Proof/Laws/PerInstr.lean ====
section
/-! SUPPORT. The per-instruction family `EncodingFitsRow`: the word of an instruction carries the fixed bits of its row
of the opcode table, and the row stands in the table (rules R91, R95). -/

namespace Sys2Proof.Laws

theorem and_encodeNNN (f g : BitVec 4) (a b : Addr12) :
    encodeNNN f a &&& encodeNNN g b = encodeNNN (f &&& g) (a &&& b) := BitVec.and_append

theorem and_encodeXKK (f g x u : BitVec 4) (a b : Byte) :
    encodeXKK f x a &&& encodeXKK g u b = encodeXKK (f &&& g) (x &&& u) (a &&& b) := by
  unfold encodeXKK
  rw [BitVec.and_append, BitVec.and_append]

theorem and_encodeXYN (f g x u y v n m : BitVec 4) :
    encodeXYN f x y n &&& encodeXYN g u v m = encodeXYN (f &&& g) (x &&& u) (y &&& v) (n &&& m) := by
  unfold encodeXYN
  rw [BitVec.and_append, BitVec.and_append, BitVec.and_append]

/-- A row with mask `0xF000` accepts any operand bits below the family. -/
theorem accepts_nnn (r : OpcodeRow) (f : BitVec 4) (nnn : Addr12) (hm : r.mask = encodeNNN 0xF#4 0#12)
    (hb : r.bits = encodeNNN (f &&& 0xF#4) 0#12) : r.accepts (encodeNNN f nnn) = true := by
  unfold OpcodeRow.accepts
  rw [hm, hb, and_encodeNNN, BitVec.and_zero, beq_self_eq_true]

theorem accepts_xkk (r : OpcodeRow) (f : BitVec 4) (x : RegNum) (kk : Byte) (hm : r.mask = encodeXKK 0xF#4 0#4 0#8)
    (hb : r.bits = encodeXKK (f &&& 0xF#4) 0#4 0#8) : r.accepts (encodeXKK f x kk) = true := by
  unfold OpcodeRow.accepts
  rw [hm, hb, and_encodeXKK, BitVec.and_zero, BitVec.and_zero, beq_self_eq_true]

theorem accepts_x (r : OpcodeRow) (f : BitVec 4) (x : RegNum) (kk : Byte) (hm : r.mask = encodeXKK 0xF#4 0#4 0xFF#8)
    (hb : r.bits = encodeXKK (f &&& 0xF#4) 0#4 (kk &&& 0xFF#8)) : r.accepts (encodeXKK f x kk) = true := by
  unfold OpcodeRow.accepts
  rw [hm, hb, and_encodeXKK, BitVec.and_zero, beq_self_eq_true]

theorem accepts_xy (r : OpcodeRow) (f : BitVec 4) (x y n : BitVec 4) (hm : r.mask = encodeXYN 0xF#4 0#4 0#4 0xF#4)
    (hb : r.bits = encodeXYN (f &&& 0xF#4) 0#4 0#4 (n &&& 0xF#4)) : r.accepts (encodeXYN f x y n) = true := by
  unfold OpcodeRow.accepts
  rw [hm, hb, and_encodeXYN, BitVec.and_zero, BitVec.and_zero, beq_self_eq_true]

theorem accepts_xyn (r : OpcodeRow) (f : BitVec 4) (x y n : BitVec 4) (hm : r.mask = encodeXYN 0xF#4 0#4 0#4 0#4)
    (hb : r.bits = encodeXYN (f &&& 0xF#4) 0#4 0#4 0#4) : r.accepts (encodeXYN f x y n) = true := by
  unfold OpcodeRow.accepts
  rw [hm, hb, and_encodeXYN, BitVec.and_zero, BitVec.and_zero, BitVec.and_zero, beq_self_eq_true]

/-- The word of the instruction matches the instruction's row, and the row is in the table. -/
def EncodingFitsRow.Statement (i : Instr) : Prop :=
  (opcodeRow i).accepts (encodeWord i) = true ∧ opcodeRow i ∈ opcodeTable

theorem EncodingFitsRow.cls : EncodingFitsRow.Statement .cls :=
  ⟨by decide, by decide⟩

theorem EncodingFitsRow.ret : EncodingFitsRow.Statement .ret :=
  ⟨by decide, by decide⟩

theorem EncodingFitsRow.jp (nnn : Addr12) : EncodingFitsRow.Statement (.jp nnn) :=
  ⟨accepts_nnn (opcodeRow (.jp 0)) 0x1#4 nnn (by decide) (by decide),
    show opcodeRow (.jp 0) ∈ opcodeTable by decide⟩

theorem EncodingFitsRow.call (nnn : Addr12) : EncodingFitsRow.Statement (.call nnn) :=
  ⟨accepts_nnn (opcodeRow (.call 0)) 0x2#4 nnn (by decide) (by decide),
    show opcodeRow (.call 0) ∈ opcodeTable by decide⟩

theorem EncodingFitsRow.seI (x : RegNum) (kk : Byte) : EncodingFitsRow.Statement (.seI x kk) :=
  ⟨accepts_xkk (opcodeRow (.seI 0 0)) 0x3#4 x kk (by decide) (by decide),
    show opcodeRow (.seI 0 0) ∈ opcodeTable by decide⟩

theorem EncodingFitsRow.sneI (x : RegNum) (kk : Byte) : EncodingFitsRow.Statement (.sneI x kk) :=
  ⟨accepts_xkk (opcodeRow (.sneI 0 0)) 0x4#4 x kk (by decide) (by decide),
    show opcodeRow (.sneI 0 0) ∈ opcodeTable by decide⟩

theorem EncodingFitsRow.seR (x y : RegNum) : EncodingFitsRow.Statement (.seR x y) :=
  ⟨accepts_xy (opcodeRow (.seR 0 0)) 0x5#4 x y 0x0#4 (by decide) (by decide),
    show opcodeRow (.seR 0 0) ∈ opcodeTable by decide⟩

theorem EncodingFitsRow.ldI (x : RegNum) (kk : Byte) : EncodingFitsRow.Statement (.ldI x kk) :=
  ⟨accepts_xkk (opcodeRow (.ldI 0 0)) 0x6#4 x kk (by decide) (by decide),
    show opcodeRow (.ldI 0 0) ∈ opcodeTable by decide⟩

theorem EncodingFitsRow.addI (x : RegNum) (kk : Byte) : EncodingFitsRow.Statement (.addI x kk) :=
  ⟨accepts_xkk (opcodeRow (.addI 0 0)) 0x7#4 x kk (by decide) (by decide),
    show opcodeRow (.addI 0 0) ∈ opcodeTable by decide⟩

theorem EncodingFitsRow.ldR (x y : RegNum) : EncodingFitsRow.Statement (.ldR x y) :=
  ⟨accepts_xy (opcodeRow (.ldR 0 0)) 0x8#4 x y 0x0#4 (by decide) (by decide),
    show opcodeRow (.ldR 0 0) ∈ opcodeTable by decide⟩

theorem EncodingFitsRow.orR (x y : RegNum) : EncodingFitsRow.Statement (.orR x y) :=
  ⟨accepts_xy (opcodeRow (.orR 0 0)) 0x8#4 x y 0x1#4 (by decide) (by decide),
    show opcodeRow (.orR 0 0) ∈ opcodeTable by decide⟩

theorem EncodingFitsRow.andR (x y : RegNum) : EncodingFitsRow.Statement (.andR x y) :=
  ⟨accepts_xy (opcodeRow (.andR 0 0)) 0x8#4 x y 0x2#4 (by decide) (by decide),
    show opcodeRow (.andR 0 0) ∈ opcodeTable by decide⟩

theorem EncodingFitsRow.xorR (x y : RegNum) : EncodingFitsRow.Statement (.xorR x y) :=
  ⟨accepts_xy (opcodeRow (.xorR 0 0)) 0x8#4 x y 0x3#4 (by decide) (by decide),
    show opcodeRow (.xorR 0 0) ∈ opcodeTable by decide⟩

theorem EncodingFitsRow.addR (x y : RegNum) : EncodingFitsRow.Statement (.addR x y) :=
  ⟨accepts_xy (opcodeRow (.addR 0 0)) 0x8#4 x y 0x4#4 (by decide) (by decide),
    show opcodeRow (.addR 0 0) ∈ opcodeTable by decide⟩

theorem EncodingFitsRow.sub (x y : RegNum) : EncodingFitsRow.Statement (.sub x y) :=
  ⟨accepts_xy (opcodeRow (.sub 0 0)) 0x8#4 x y 0x5#4 (by decide) (by decide),
    show opcodeRow (.sub 0 0) ∈ opcodeTable by decide⟩

theorem EncodingFitsRow.shr (x y : RegNum) : EncodingFitsRow.Statement (.shr x y) :=
  ⟨accepts_xy (opcodeRow (.shr 0 0)) 0x8#4 x y 0x6#4 (by decide) (by decide),
    show opcodeRow (.shr 0 0) ∈ opcodeTable by decide⟩

theorem EncodingFitsRow.subn (x y : RegNum) : EncodingFitsRow.Statement (.subn x y) :=
  ⟨accepts_xy (opcodeRow (.subn 0 0)) 0x8#4 x y 0x7#4 (by decide) (by decide),
    show opcodeRow (.subn 0 0) ∈ opcodeTable by decide⟩

theorem EncodingFitsRow.shl (x y : RegNum) : EncodingFitsRow.Statement (.shl x y) :=
  ⟨accepts_xy (opcodeRow (.shl 0 0)) 0x8#4 x y 0xE#4 (by decide) (by decide),
    show opcodeRow (.shl 0 0) ∈ opcodeTable by decide⟩

theorem EncodingFitsRow.sneR (x y : RegNum) : EncodingFitsRow.Statement (.sneR x y) :=
  ⟨accepts_xy (opcodeRow (.sneR 0 0)) 0x9#4 x y 0x0#4 (by decide) (by decide),
    show opcodeRow (.sneR 0 0) ∈ opcodeTable by decide⟩

theorem EncodingFitsRow.ldIdx (nnn : Addr12) : EncodingFitsRow.Statement (.ldIdx nnn) :=
  ⟨accepts_nnn (opcodeRow (.ldIdx 0)) 0xA#4 nnn (by decide) (by decide),
    show opcodeRow (.ldIdx 0) ∈ opcodeTable by decide⟩

theorem EncodingFitsRow.jpV0 (nnn : Addr12) : EncodingFitsRow.Statement (.jpV0 nnn) :=
  ⟨accepts_nnn (opcodeRow (.jpV0 0)) 0xB#4 nnn (by decide) (by decide),
    show opcodeRow (.jpV0 0) ∈ opcodeTable by decide⟩

theorem EncodingFitsRow.rnd (x : RegNum) (kk : Byte) : EncodingFitsRow.Statement (.rnd x kk) :=
  ⟨accepts_xkk (opcodeRow (.rnd 0 0)) 0xC#4 x kk (by decide) (by decide),
    show opcodeRow (.rnd 0 0) ∈ opcodeTable by decide⟩

theorem EncodingFitsRow.drw (x y : RegNum) (n : BitVec 4) : EncodingFitsRow.Statement (.drw x y n) :=
  ⟨accepts_xyn (opcodeRow (.drw 0 0 0)) 0xD#4 x y n (by decide) (by decide),
    show opcodeRow (.drw 0 0 0) ∈ opcodeTable by decide⟩

theorem EncodingFitsRow.skp (x : RegNum) : EncodingFitsRow.Statement (.skp x) :=
  ⟨accepts_x (opcodeRow (.skp 0)) 0xE#4 x 0x9E#8 (by decide) (by decide),
    show opcodeRow (.skp 0) ∈ opcodeTable by decide⟩

theorem EncodingFitsRow.sknp (x : RegNum) : EncodingFitsRow.Statement (.sknp x) :=
  ⟨accepts_x (opcodeRow (.sknp 0)) 0xE#4 x 0xA1#8 (by decide) (by decide),
    show opcodeRow (.sknp 0) ∈ opcodeTable by decide⟩

theorem EncodingFitsRow.ldVxDt (x : RegNum) : EncodingFitsRow.Statement (.ldVxDt x) :=
  ⟨accepts_x (opcodeRow (.ldVxDt 0)) 0xF#4 x 0x07#8 (by decide) (by decide),
    show opcodeRow (.ldVxDt 0) ∈ opcodeTable by decide⟩

theorem EncodingFitsRow.ldVxK (x : RegNum) : EncodingFitsRow.Statement (.ldVxK x) :=
  ⟨accepts_x (opcodeRow (.ldVxK 0)) 0xF#4 x 0x0A#8 (by decide) (by decide),
    show opcodeRow (.ldVxK 0) ∈ opcodeTable by decide⟩

theorem EncodingFitsRow.ldDtVx (x : RegNum) : EncodingFitsRow.Statement (.ldDtVx x) :=
  ⟨accepts_x (opcodeRow (.ldDtVx 0)) 0xF#4 x 0x15#8 (by decide) (by decide),
    show opcodeRow (.ldDtVx 0) ∈ opcodeTable by decide⟩

theorem EncodingFitsRow.ldStVx (x : RegNum) : EncodingFitsRow.Statement (.ldStVx x) :=
  ⟨accepts_x (opcodeRow (.ldStVx 0)) 0xF#4 x 0x18#8 (by decide) (by decide),
    show opcodeRow (.ldStVx 0) ∈ opcodeTable by decide⟩

theorem EncodingFitsRow.addIdx (x : RegNum) : EncodingFitsRow.Statement (.addIdx x) :=
  ⟨accepts_x (opcodeRow (.addIdx 0)) 0xF#4 x 0x1E#8 (by decide) (by decide),
    show opcodeRow (.addIdx 0) ∈ opcodeTable by decide⟩

theorem EncodingFitsRow.ldF (x : RegNum) : EncodingFitsRow.Statement (.ldF x) :=
  ⟨accepts_x (opcodeRow (.ldF 0)) 0xF#4 x 0x29#8 (by decide) (by decide),
    show opcodeRow (.ldF 0) ∈ opcodeTable by decide⟩

theorem EncodingFitsRow.ldB (x : RegNum) : EncodingFitsRow.Statement (.ldB x) :=
  ⟨accepts_x (opcodeRow (.ldB 0)) 0xF#4 x 0x33#8 (by decide) (by decide),
    show opcodeRow (.ldB 0) ∈ opcodeTable by decide⟩

theorem EncodingFitsRow.ldMemVx (x : RegNum) : EncodingFitsRow.Statement (.ldMemVx x) :=
  ⟨accepts_x (opcodeRow (.ldMemVx 0)) 0xF#4 x 0x55#8 (by decide) (by decide),
    show opcodeRow (.ldMemVx 0) ∈ opcodeTable by decide⟩

theorem EncodingFitsRow.ldVxMem (x : RegNum) : EncodingFitsRow.Statement (.ldVxMem x) :=
  ⟨accepts_x (opcodeRow (.ldVxMem 0)) 0xF#4 x 0x65#8 (by decide) (by decide),
    show opcodeRow (.ldVxMem 0) ∈ opcodeTable by decide⟩

end Sys2Proof.Laws
end

