-- ==== Sys2Proof/Laws/Transactions.lean ====
section
/-! SUPPORT. What the environment's operations do: a tick, a key, and the memory a construction leaves. -/

namespace Sys2Proof.Machine

theorem toNat_tickDown (t : Byte) : (tickDown t).toNat = t.toNat - 1 := by
  unfold tickDown
  have := t.isLt
  by_cases h : t = 0#8
  · subst h; rfl
  · have : t.toNat ≠ 0 := fun e => h (BitVec.eq_of_toNat_eq e)
    rw [if_neg h, BitVec.toNat_sub]
    simp
    omega

theorem keyDown_setKey (k j : KeyNum) (pressed : Bool) (s : State) :
    keyDown (setKey k pressed s) j = if j = k then pressed else keyDown s j := by
  have hj := j.isLt
  have hk := k.isLt
  have hb : (1#16 <<< k.toNat).getLsbD j.toNat = decide (j = k) := by
    rw [BitVec.getLsbD_shiftLeft, BitVec.getLsbD_one]
    by_cases e : j = k
    · subst e; simp; omega
    · have hne : j.toNat ≠ k.toNat := fun c => e (BitVec.eq_of_toNat_eq c)
      simp only [e, decide_false]
      by_cases hlt : j.toNat < k.toNat
      · simp [hlt]
      · have : ¬ j.toNat - k.toNat = 0 := by omega
        simp [this]
  unfold keyDown setKey
  cases pressed
  · simp only [Bool.false_eq_true, if_false, BitVec.getLsbD_and, BitVec.getLsbD_not, hb]
    by_cases e : j = k
    · simp [e]
    · simp [e]; omega
  · simp only [if_true, BitVec.getLsbD_or, hb]
    by_cases e : j = k <;> simp [e]

theorem Memory.initial_of_le (a : Nat) (h : 80 ≤ a) : Memory.initial a = 0x00#8 := by
  rw [Memory.initial, List.getD_eq_getElem?_getD, List.getElem?_eq_none (show fontBytes.length ≤ a from h)]
  rfl

/-- What memory holds at launch (R291). -/
theorem read_launchMemory (p : Config.Params) (img : List Byte) (a : Nat) :
    Memory.read (launchMemory p img) a =
      if 0x200 ≤ a ∧ a < 0x200 + img.length then img.getD (a - 0x200) 0#8
      else if h : a < 80 then p.font[a] else 0x00#8 := by
  have h0 := Memory.rising_writeBytes p.font.toList [] 0 List.Pairwise.nil
  unfold launchMemory
  rw [Memory.read_writeBytes _ _ _ _ h0, Memory.read_writeBytes _ _ _ _ List.Pairwise.nil]
  by_cases g : 0x200 ≤ a ∧ a < 0x200 + img.length
  · rw [if_pos (show Config.programOrigin ≤ a ∧ a < Config.programOrigin + img.length from g), if_pos g]; rfl
  · rw [if_neg (show ¬ (Config.programOrigin ≤ a ∧ a < Config.programOrigin + img.length) from g), if_neg g]
    by_cases h : a < 80
    · rw [dif_pos h, if_pos (by simpa using h)]
      simp [List.getD_eq_getElem?_getD, h]
    · rw [dif_neg h, if_neg (by simpa using h), Memory.read_nil, Memory.initial_of_le a (by omega)]

end Sys2Proof.Machine
end

