-- ==== Sys2Proof/Tests/Slice0.lean ====
section
/-! SUPPORT. Tests of single words and single steps, and a witness for the hypotheses of each statement. The expected
values are those of the spec's vectors (`spec/95_test_vectors.md`, numbers T and S) or follow by hand from the rule
named; none is the model's own answer. -/

namespace Sys2Proof.Tests

open Sys2Proof Sys2Proof.Machine Sys2Proof.Safety

/-! ## Helpers -/

/-- The next state of an outcome, if it is one. -/
def nextOf (o : Host.Outcome State Fault Refusal) : Option State :=
  match o with
  | .next t => some t
  | .fault _ => none
  | .refused _ => none

/-- A state inside an instruction fetched at `0x0200`: `PC` is already advanced (R125). -/
def running : State := { State.reset with pc := 0x0202#16 }

/-- Set general registers of a state. -/
def withRegs (rs : List (RegNum × Byte)) (s : State) : State := rs.foldl (fun t r => writeReg r.1 r.2 t) s

/-- A running instruction with some registers, `I` and some bytes of memory. -/
def setup (rs : List (RegNum × Byte)) (i : Word) (m : Memory) : State := withRegs rs { running with i := i, mem := m }

/-- A state about to fetch a word at `0x0200`. -/
def fetching (m : Memory) : State := { State.reset with mem := m }

/-! ## Well-formedness: each family's illegal words are refused, and an image that is too long -/

theorem test_illegal_family_0 : WellFormed.word 0x0123 = false ∧ WellFormed.word 0x00E1 = false := by decide
theorem test_illegal_family_5 : WellFormed.word 0x5121 = false ∧ WellFormed.word 0x512F = false := by decide
theorem test_illegal_family_8 :
    [0x8008#16, 0x8129, 0x812A, 0x812B, 0x812C, 0x812D, 0x812F].all (fun w => !WellFormed.word w) = true := by decide
theorem test_illegal_family_9 : WellFormed.word 0x9AB5 = false := by decide
theorem test_illegal_family_E : WellFormed.word 0xE19F = false ∧ WellFormed.word 0xE100 = false := by decide
theorem test_illegal_family_F : WellFormed.word 0xF1FF = false ∧ WellFormed.word 0xFFFF = false := by decide
theorem test_legal_words :
    [0x00E0#16, 0x00EE, 0x1FFF, 0x5AB0, 0x812E, 0x9AB0, 0xE19E, 0xF165].all WellFormed.word = true := by decide
/-- S8: 3584 bytes fit, 3585 do not. -/
theorem test_image_length (b : Byte) :
    WellFormed.image (List.replicate 3584 b) = true ∧ WellFormed.image (List.replicate 3585 b) = false := by
  unfold WellFormed.image Config.maxImageLength
  rw [List.length_replicate, List.length_replicate]
  decide

/-! ## Decoding: one word of each row, written out from the patterns of R95 -/

theorem test_decode_family_0 :
    decodeWord 0b0000_0000_1110_0000#16 = some .cls ∧ decodeWord 0b0000_0000_1110_1110#16 = some .ret := by decide
theorem test_decode_nnn :
    decodeWord 0b0001_0010_0011_0100#16 = some (.jp 0x234) ∧ decodeWord 0b0010_1010_1011_1100#16 = some (.call 0xABC)
    ∧ decodeWord 0b1010_0010_1111_0000#16 = some (.ldIdx 0x2F0)
    ∧ decodeWord 0b1011_0011_0000_0000#16 = some (.jpV0 0x300) := by decide
theorem test_decode_xkk :
    decodeWord 0b0011_0011_0010_1010#16 = some (.seI 3 0x2A) ∧ decodeWord 0b0100_0011_0010_1010#16 = some (.sneI 3 0x2A)
    ∧ decodeWord 0b0110_1010_0010_1100#16 = some (.ldI 0xA 0x2C)
    ∧ decodeWord 0b0111_0010_0010_0000#16 = some (.addI 2 0x20)
    ∧ decodeWord 0b1100_0011_0000_1111#16 = some (.rnd 3 0x0F) := by decide
theorem test_decode_skip_xy :
    decodeWord 0b0101_0001_0010_0000#16 = some (.seR 1 2) ∧ decodeWord 0b1001_0001_0010_0000#16 = some (.sneR 1 2) := by
  decide
theorem test_decode_family_8_low :
    decodeWord 0b1000_0001_0010_0000#16 = some (.ldR 1 2) ∧ decodeWord 0b1000_0001_0010_0001#16 = some (.orR 1 2)
    ∧ decodeWord 0b1000_0001_0010_0010#16 = some (.andR 1 2)
    ∧ decodeWord 0b1000_0001_0010_0011#16 = some (.xorR 1 2) := by decide
theorem test_decode_family_8_high :
    decodeWord 0b1000_0001_0010_0100#16 = some (.addR 1 2) ∧ decodeWord 0b1000_0001_0010_0101#16 = some (.sub 1 2)
    ∧ decodeWord 0b1000_0001_0010_0110#16 = some (.shr 1 2) ∧ decodeWord 0b1000_0001_0010_0111#16 = some (.subn 1 2)
    ∧ decodeWord 0b1000_0001_0010_1110#16 = some (.shl 1 2) := by decide
theorem test_decode_drw_and_keys :
    decodeWord 0b1101_0001_0010_0101#16 = some (.drw 1 2 5) ∧ decodeWord 0b1110_0010_1001_1110#16 = some (.skp 2)
    ∧ decodeWord 0b1110_0010_1010_0001#16 = some (.sknp 2) := by decide
theorem test_decode_family_F_timers :
    decodeWord 0b1111_0100_0000_0111#16 = some (.ldVxDt 4) ∧ decodeWord 0b1111_0100_0000_1010#16 = some (.ldVxK 4)
    ∧ decodeWord 0b1111_0100_0001_0101#16 = some (.ldDtVx 4)
    ∧ decodeWord 0b1111_0100_0001_1000#16 = some (.ldStVx 4) := by decide
theorem test_decode_family_F_memory :
    decodeWord 0b1111_0100_0001_1110#16 = some (.addIdx 4) ∧ decodeWord 0b1111_0100_0010_1001#16 = some (.ldF 4)
    ∧ decodeWord 0b1111_0100_0011_0011#16 = some (.ldB 4) ∧ decodeWord 0b1111_0100_0101_0101#16 = some (.ldMemVx 4)
    ∧ decodeWord 0b1111_0100_0110_0101#16 = some (.ldVxMem 4) := by decide
/-- R90: high byte first; two bytes are read and the rest is given back; one byte is no instruction. -/
theorem test_decode_bytes :
    (decode [0x12, 0x34, 0x56]).toOption = some (.jp 0x234, [0x56]) ∧ (decode [0x12]).toOption = none
    ∧ decodeTableWord 16 0x1234 = some (.jp 0x234) := by decide

/-! ## Control transfer -/

/-- T20, T22. -/
theorem test_jp : (nextOf (exec (.jp 0x201) running)).map (·.pc) = some 0x0201#16 := by decide
/-- T24: the last slot. -/
theorem test_call_last_slot :
    (nextOf (exec (.call 0x300) { running with sp := 15#5 })).map (fun t => (t.pc, t.sp, t.stack[15]))
      = some (0x0300#16, 16#5, 0x0202#16) := by decide
/-- T27. -/
theorem test_call_overflow :
    (nextOf (exec (.call 0x300) { running with sp := 16#5 })).map
        (fun t => (t.pc, t.sp, t.halted, t.fcode, t.fopc, t.fpc))
      = some (0x0202#16, 16#5, true, 2#3, 0x2300#16, 0x0200#16) := by decide
/-- T26. -/
theorem test_ret :
    (nextOf (exec .ret { running with sp := 3#5, stack := State.reset.stack.set 2 0x0456#16 })).map
        (fun t => (t.pc, t.sp, t.stack[2])) = some (0x0456#16, 2#5, 0x0456#16) := by decide
/-- T28. -/
theorem test_ret_underflow :
    (nextOf (exec .ret running)).map (fun t => (t.pc, t.sp, t.halted, t.fcode, t.fopc, t.fpc))
      = some (0x0202#16, 0#5, true, 3#3, 0x00EE#16, 0x0200#16) := by decide
/-- T30: not reduced. -/
theorem test_jpV0 :
    (nextOf (exec (.jpV0 0xFFF) (setup [(0, 0xFF)] 0 []))).map (·.pc) = some 0x10FE#16 := by decide
/-- T31: `V[3]` plays no part. -/
theorem test_jpV0_register :
    (nextOf (exec (.jpV0 0x300) (setup [(3, 0x50)] 0 []))).map (·.pc) = some 0x0300#16 := by decide
/-- T32, T33. -/
theorem test_seI :
    (nextOf (exec (.seI 3 0x2A) (setup [(3, 0x2A)] 0 []))).map (·.pc) = some 0x0204#16
    ∧ (nextOf (exec (.seI 3 0x2A) (setup [(3, 0x2B)] 0 []))).map (·.pc) = some 0x0202#16 := by decide
/-- T34, T35. -/
theorem test_sneI :
    (nextOf (exec (.sneI 3 0x2A) (setup [(3, 0x2A)] 0 []))).map (·.pc) = some 0x0202#16
    ∧ (nextOf (exec (.sneI 3 0x00) (setup [(3, 0x2A)] 0 []))).map (·.pc) = some 0x0204#16 := by decide
/-- T36, T37. -/
theorem test_seR :
    (nextOf (exec (.seR 1 2) (setup [(1, 7), (2, 7)] 0 []))).map (·.pc) = some 0x0204#16
    ∧ (nextOf (exec (.seR 1 2) (setup [(1, 7), (2, 8)] 0 []))).map (·.pc) = some 0x0202#16 := by decide
/-- T39, T40. -/
theorem test_sneR :
    (nextOf (exec (.sneR 1 2) (setup [(1, 7), (2, 8)] 0 []))).map (·.pc) = some 0x0204#16
    ∧ (nextOf (exec (.sneR 4 4) (setup [(4, 9)] 0 []))).map (·.pc) = some 0x0202#16 := by decide

/-! ## Register load and ALU -/

/-- `V[x]` and `VF` after an instruction. -/
def regAndFlag (x : RegNum) (i : Instr) (s : State) : Option (Byte × Byte) :=
  (nextOf (exec i s)).map (fun t => (readReg t x, readReg t 0xF))

/-- T50, T51. -/
theorem test_ldI :
    regAndFlag 0xA (.ldI 0xA 0x2C) running = some (0x2C, 0) ∧ regAndFlag 0xF (.ldI 0xF 7) running = some (7, 7) := by
  decide
/-- T52, T95. -/
theorem test_addI :
    regAndFlag 2 (.addI 2 0x20) (setup [(2, 0xF0)] 0 []) = some (0x10, 0)
    ∧ regAndFlag 0xF (.addI 0xF 0xF5) (setup [(0xF, 0x10)] 0 []) = some (5, 5) := by decide
/-- T55. -/
theorem test_ldR : regAndFlag 0 (.ldR 0 1) (setup [(1, 9)] 0 []) = some (9, 0) := by decide
/-- T56. -/
theorem test_or : regAndFlag 0 (.orR 0 1) (setup [(0, 0xF0), (1, 0x0F), (0xF, 1)] 0 []) = some (0xFF, 1) := by decide
/-- T57. -/
theorem test_and : regAndFlag 0 (.andR 0 1) (setup [(0, 0xF5), (1, 0x3C), (0xF, 1)] 0 []) = some (0x34, 1) := by decide
/-- T58, T93. -/
theorem test_xor :
    regAndFlag 0 (.xorR 0 1) (setup [(0, 0xF5), (1, 0x3C), (0xF, 1)] 0 []) = some (0xC9, 1)
    ∧ regAndFlag 0xF (.xorR 0xF 1) (setup [(0xF, 0x0C), (1, 0x0A)] 0 []) = some (6, 6) := by decide
/-- T60, T62. -/
theorem test_addR :
    regAndFlag 0 (.addR 0 1) (setup [(0, 0xFF), (1, 1)] 0 []) = some (0, 1)
    ∧ regAndFlag 0 (.addR 0 1) (setup [(0, 0x7F), (1, 0x80), (0xF, 1)] 0 []) = some (0xFF, 0) := by decide
/-- T80, T90. -/
theorem test_addR_flag_register :
    regAndFlag 0xF (.addR 0xF 1) (setup [(0xF, 0xFF), (1, 1)] 0 []) = some (1, 1)
    ∧ regAndFlag 0 (.addR 0 0xF) (setup [(0, 0xFE), (0xF, 2)] 0 []) = some (0, 1) := by decide
/-- T64, T65. -/
theorem test_sub :
    regAndFlag 0 (.sub 0 1) (setup [(0, 1), (1, 2), (0xF, 1)] 0 []) = some (0xFF, 0)
    ∧ regAndFlag 0 (.sub 0 1) (setup [(0, 5), (1, 5)] 0 []) = some (0, 1) := by decide
/-- T82, T91. -/
theorem test_sub_flag_register :
    regAndFlag 0xF (.sub 0xF 1) (setup [(0xF, 2), (1, 3)] 0 []) = some (0, 0)
    ∧ regAndFlag 0 (.sub 0 0xF) (setup [(0, 5), (0xF, 1)] 0 []) = some (4, 1) := by decide
/-- T69, T70. -/
theorem test_subn :
    regAndFlag 0 (.subn 0 1) (setup [(0, 1), (1, 3)] 0 []) = some (2, 1)
    ∧ regAndFlag 0 (.subn 0 1) (setup [(0, 3), (1, 1), (0xF, 1)] 0 []) = some (0xFE, 0) := by decide
/-- T86, T92. -/
theorem test_subn_flag_register :
    regAndFlag 0xF (.subn 0xF 1) (setup [(0xF, 2), (1, 3)] 0 []) = some (1, 1)
    ∧ regAndFlag 0 (.subn 0 0xF) (setup [(0, 5), (0xF, 9)] 0 []) = some (4, 1) := by decide
/-- T67, T68. -/
theorem test_shr :
    regAndFlag 4 (.shr 4 9) (setup [(4, 5), (9, 0xEE)] 0 []) = some (2, 1)
    ∧ regAndFlag 4 (.shr 4 0) (setup [(4, 0xFE), (0xF, 1)] 0 []) = some (0x7F, 0) := by decide
/-- T84, T85. -/
theorem test_shr_flag_register :
    regAndFlag 0xF (.shr 0xF 0) (setup [(0xF, 0xFF)] 0 []) = some (0, 0)
    ∧ regAndFlag 0xF (.shr 0xF 0) (setup [(0xF, 1)] 0 []) = some (0, 0) := by decide
/-- T71, T72. -/
theorem test_shl :
    regAndFlag 4 (.shl 4 0) (setup [(4, 0x81)] 0 []) = some (2, 1)
    ∧ regAndFlag 4 (.shl 4 0) (setup [(4, 0x40), (0xF, 1)] 0 []) = some (0x80, 0) := by decide
/-- T87, T88. -/
theorem test_shl_flag_register :
    regAndFlag 0xF (.shl 0xF 0) (setup [(0xF, 0x80)] 0 []) = some (2, 2)
    ∧ regAndFlag 0xF (.shl 0xF 0) (setup [(0xF, 0x7F)] 0 []) = some (0, 0) := by decide
/-- T75: whatever the draw. -/
theorem test_rnd_zero_mask : regAndFlag 3 (.rnd 3 0) (setup [(3, 0x11)] 0 []) = some (0, 0) := by
  simp [regAndFlag, nextOf, exec, execRnd, setup, withRegs, running, readReg, State.reset]
/-- T77, R130: only `Cxkk` moves on to the next draw. -/
theorem test_draws :
    (nextOf (exec (.rnd 3 0xFF) running)).map (·.draws) = some 1
    ∧ (nextOf (exec (.ldI 3 0x55) running)).map (·.draws) = some 0 := ⟨rfl, rfl⟩

/-! ## Index register and memory -/

/-- The listed memory after an instruction, and `I`. -/
def memAndIndex (i : Instr) (s : State) : Option (Memory × Word) := (nextOf (exec i s)).map (fun t => (t.mem, t.i))

/-- `PC`, `HALTED` and the fault record after an instruction. -/
def faultRecord (i : Instr) (s : State) : Option (Word × Bool × BitVec 3 × Word × Word) :=
  (nextOf (exec i s)).map (fun t => (t.pc, t.halted, t.fcode, t.fopc, t.fpc))

/-- T100. -/
theorem test_ldIdx : (nextOf (exec (.ldIdx 0x2F0) { running with i := 0xFFFF })).map (·.i) = some 0x02F0#16 := by decide
/-- T102, T104. -/
theorem test_addIdx :
    (nextOf (exec (.addIdx 2) (setup [(2, 1)] 0x0FFF []))).map (fun t => (t.i, readReg t 0xF)) = some (0x1000#16, 0)
    ∧ (nextOf (exec (.addIdx 2) (setup [(2, 0xFF)] 0xFF80 []))).map (·.i) = some 0x007F#16 := by decide
/-- T106, T107. -/
theorem test_ldF :
    (nextOf (exec (.ldF 1) (setup [(1, 0x1A)] 0 []))).map (·.i) = some 0x0032#16
    ∧ (nextOf (exec (.ldF 1) (setup [(1, 0x0F)] 0 []))).map (·.i) = some 0x004B#16 := by decide
/-- T112: the last base that fits. -/
theorem test_ldB :
    memAndIndex (.ldB 5) (setup [(5, 0x9C)] 0x0FFD []) = some ([(0xFFD, 1), (0xFFE, 5), (0xFFF, 6)], 0x0FFD) := by decide
/-- T113. -/
theorem test_ldB_out_of_bounds :
    faultRecord (.ldB 5) (setup [(5, 0x9C)] 0x0FFE []) = some (0x0202, true, 5, 0xF533, 0x0200)
    ∧ memAndIndex (.ldB 5) (setup [(5, 0x9C)] 0x0FFE []) = some ([], 0x0FFE) := by decide
/-- T114. -/
theorem test_ldMemVx :
    memAndIndex (.ldMemVx 2) (setup [(0, 0x11), (1, 0x22), (2, 0x33), (3, 0x44)] 0x0400 [])
      = some ([(0x400, 0x11), (0x401, 0x22), (0x402, 0x33)], 0x0400) := by decide
/-- T116. -/
theorem test_ldMemVx_out_of_bounds :
    faultRecord (.ldMemVx 0xF) (setup [(0, 1)] 0x0FF1 []) = some (0x0202, true, 5, 0xFF55, 0x0200)
    ∧ memAndIndex (.ldMemVx 0xF) (setup [(0, 1)] 0x0FF1 []) = some ([], 0x0FF1) := by decide
/-- T119. -/
theorem test_ldVxMem :
    (nextOf (exec (.ldVxMem 1) (setup [(2, 0x77)] 0x0400 [(0x400, 0xAA), (0x401, 0xBB)]))).map
        (fun t => (readReg t 0, readReg t 1, readReg t 2, t.i)) = some (0xAA, 0xBB, 0x77, 0x0400) := by decide
/-- T120: the default font. -/
theorem test_ldVxMem_font :
    (nextOf (exec (.ldVxMem 4) running)).map (fun t => t.v.toList.take 6)
      = some [0xF0, 0x90, 0x90, 0x90, 0xF0, 0x00] := by decide
/-- R62: writing what an unlisted address reads as unlists it, so equal memories are equal lists. -/
theorem test_memory_canonical :
    Memory.write [(0x300, 5)] 0x300 0 = [] ∧ Memory.write [] 0x000 0xF0 = []
    ∧ Memory.write [(0x300, 5)] 0x200 7 = [(0x200, 7), (0x300, 5)]
    ∧ Memory.read [(0x000, 0xAB)] 0x000 = 0xAB := by decide

/-! ## Display -/

/-- The listed rows of the buffer and `VF` after an instruction. -/
def rowsAndFlag (rows : List Row) (i : Instr) (s : State) : Option (List (BitVec 64) × Byte) :=
  (nextOf (exec i s)).map (fun t => (rows.map (fun r => t.fb[r.toNat]'r.isLt), readReg t 0xF))

/-- T142. -/
theorem test_cls :
    rowsAndFlag [0, 31] .cls { setup [(0xF, 1)] 0 [] with fb := Vector.replicate 32 0xFFFFFFFFFFFFFFFF } = some ([0, 0], 1) := by
  decide
/-- T132, T133: the columns wrap to `(62,0) (63,0) (0,0) .. (5,0)`, the rows to `(0,31) (0,0)`. -/
theorem test_drw_wrap :
    rowsAndFlag [0, 1] (.drw 0 1 1) (setup [(0, 62)] 0x0300 [(0x300, 0xFF)]) = some ([0xC00000000000003F, 0], 0)
    ∧ rowsAndFlag [31, 0] (.drw 0 1 2) (setup [(1, 31)] 0x0300 [(0x300, 0x80), (0x301, 0x80)]) = some ([1, 1], 0) := by
  decide
/-- T137, T139: a collision with the other bit drawn, and a sprite that runs past memory. -/
theorem test_drw_collision_and_bounds :
    rowsAndFlag [0] (.drw 0 1 1) { setup [] 0x0300 [(0x300, 0xC0)] with fb := State.reset.fb.set 0 2 } = some ([1], 1)
    ∧ faultRecord (.drw 0 1 5) (setup [] 0x0FFC []) = some (0x0202, true, 5, 0xD015, 0x0200) := by decide

/-! ## Keys and timers -/

/-- `PC`, `V[3]`, `KW_VALID` and `KW_PREV` after an instruction. -/
def waitView (i : Instr) (s : State) : Option (Word × Byte × Bool × BitVec 16) :=
  (nextOf (exec i s)).map (fun t => (t.pc, readReg t 3, t.kwValid, t.kwPrev))

/-- T151, T152. -/
theorem test_skp :
    (nextOf (exec (.skp 2) (setup [(2, 5)] 0 []))).map (·.pc) = some 0x0202#16
    ∧ (nextOf (exec (.skp 2) { setup [(2, 0x25)] 0 [] with key := 0x0020 })).map (·.pc) = some 0x0204#16 := by decide
/-- T153, T154. -/
theorem test_sknp :
    (nextOf (exec (.sknp 2) (setup [(2, 5)] 0 []))).map (·.pc) = some 0x0204#16
    ∧ (nextOf (exec (.sknp 2) { setup [(2, 5)] 0 [] with key := 0x0020 })).map (·.pc) = some 0x0202#16 := by decide
/-- T157, T158: arming with a key held, and staying while it is held. -/
theorem test_ldVxK_waits :
    waitView (.ldVxK 3) { running with key := 0x0010 } = some (0x0200, 0, true, 0x0010)
    ∧ waitView (.ldVxK 3) { running with key := 0x0010, kwValid := true, kwPrev := 0x0010 }
        = some (0x0200, 0, true, 0x0010) := by decide
/-- T161: the lowest of two keys. -/
theorem test_ldVxK_completes :
    waitView (.ldVxK 3) { running with key := 0x0204, kwValid := true } = some (0x0202, 2, false, 0) := by decide
/-- T163. -/
theorem test_ldVxDt :
    (nextOf (exec (.ldVxDt 4) { running with dt := 0x3C })).map (fun t => (readReg t 4, t.dt)) = some (0x3C, 0x3C) := by
  decide
/-- T164. -/
theorem test_ldDtVx :
    (nextOf (exec (.ldDtVx 4) (setup [(4, 0x3C)] 0 []))).map (fun t => (t.dt, t.st)) = some (0x3C, 0) := by decide
/-- T165. -/
theorem test_ldStVx :
    (nextOf (exec (.ldStVx 4) (setup [(4, 5)] 0 []))).map (fun t => (t.dt, t.st, soundOn t)) = some (0, 5, true) := by
  decide

/-! ## The sequencer and the transactions -/

/-- T1, T5: high byte first, and an odd `PC`. -/
theorem test_fetch :
    fetchWord (fetching [(0x200, 0x12), (0x201, 0x34)]) = some 0x1234#16
    ∧ fetchWord { fetching [(0x201, 0x6A), (0x202, 0x55)] with pc := 0x0201 } = some 0x6A55#16 := by decide
/-- T2: the last fetch in memory. -/
theorem test_step_at_end_of_memory :
    (nextOf (step { fetching [(0xFFE, 0x60), (0xFFF, 7)] with pc := 0x0FFE })).map (fun t => (t.pc, readReg t 0, t.fcode))
      = some (0x1000#16, 7, 0#3) := by decide
/-- T4. -/
theorem test_step_out_of_bounds_fetch :
    (nextOf (step { fetching [] with pc := 0x0FFF })).map (fun t => (t.pc, t.halted, t.fcode, t.fopc, t.fpc))
      = some (0x0FFF#16, true, 4#3, 0x0000#16, 0x0FFF#16) := by decide
/-- T6 and S9: an illegal word, and with a decode fault that does not halt (T15). -/
theorem test_step_decode_fault :
    (nextOf (step State.reset)).map (fun t => (t.pc, t.halted, t.fcode, t.fopc, t.fpc))
      = some (0x0202#16, true, 1#3, 0x0000#16, 0x0200#16)
    ∧ (nextOf (stepWith { defaultParams with decodeFaultHalts := false } State.reset)).map (fun t => (t.pc, t.halted))
      = some (0x0202#16, false) := by decide
/-- T14. -/
theorem test_step_halted :
    nextOf (step { State.reset with halted := true, fcode := 3, fopc := 0x00EE, fpc := 0x0200, pc := 0x0202 })
      = some { State.reset with halted := true, fcode := 3, fopc := 0x00EE, fpc := 0x0200, pc := 0x0202 }
    ∧ stepResponse { State.reset with halted := true, fcode := 3, fopc := 0x00EE, fpc := 0x0200, pc := 0x0202 }
      = .fault 3 0x00EE 0x0200 := by decide
/-- The host's placement runs the word at the first step after reset. -/
theorem test_withFetchWord :
    (nextOf (step (State.reset.withFetchWord 16 0x6A2C))).map (fun t => (t.pc, readReg t 0xA)) = some (0x0202#16, 0x2C) := by
  decide
/-- T166, T168. -/
theorem test_tickTimers :
    tickTimers { State.reset with dt := 2 } = { State.reset with dt := 1 } ∧ tickTimers State.reset = State.reset := by
  decide
/-- T170, and the release. -/
theorem test_setKey :
    (setKey 3 true State.reset).key = 0x0008#16 ∧ (setKey 3 false { State.reset with key := 0x000F }).key = 0x0007#16 := by
  decide
/-- T180. -/
theorem test_construct : (construct defaultParams [0x12, 0x00]) = { State.reset with mem := [(0x200, 0x12)] } := by decide
/-- P5, transactions 3 to 8: the key wait with a tick and two keys between. -/
theorem test_key_wait_run :
    (nextOf (runTransactions defaultParams
        [.tickTimers, .step, .setKey 3 true, .setKey 1 true, .tickTimers, .step]
        { fetching [(0x204, 0xF1), (0x205, 0x0A)] with pc := 0x0204, dt := 60 })).map
      (fun t => (t.pc, t.dt, readReg t 1, t.kwValid)) = some (0x0206#16, 58, 1, false) := by decide

/-! ## Witnesses: states and operands that meet the hypotheses of a statement, at the ends of their ranges -/

theorem witness_EncodeOfDecodeIsTheWord : decodeWord 0xFF65#16 = some (.ldVxMem 0xF) := by decide

theorem witness_DecodeSelectsTheOnlyMatchingRow :
    decodeWord 0x00EE#16 = some .ret ∧ opcodeRow .ret ∈ opcodeTable ∧ (opcodeRow .ret).accepts 0x00EE#16 = true := by
  decide

theorem witness_StepRunsTheDecodedInstruction :
    let s : State := { fetching [(0xFFE, 0x60), (0xFFF, 7)] with pc := 0x0FFE }
    s.halted = false ∧ s.pc.toNat ≤ 0xFFE
    ∧ decodeWord (Memory.read s.mem s.pc.toNat ++ Memory.read s.mem (s.pc.toNat + 1)) = some (.ldI 0 7) := by decide

theorem witness_DecodeFaultRecordsAndAdvances :
    State.reset.halted = false ∧ fetchWord State.reset = some 0x0000#16 ∧ WellFormed.illegalWord 0x0000#16 = true := by
  decide

theorem witness_OutOfBoundsFetchHalts :
    let s : State := { State.reset with pc := 0x0FFF }
    s.halted = false ∧ 0xFFF ≤ s.pc.toNat := by decide

theorem witness_HaltedIsAbsorbing :
    let s : State := { State.reset with halted := true, fcode := 4 }
    s.halted = true ∧ (∀ img, Transaction.tickTimers ≠ .construct img)
    ∧ transact defaultParams .tickTimers s = .next (tickTimers s) := ⟨rfl, fun _ => nofun, rfl⟩

/-- A step without a fault. -/
theorem witness_FaultsArePreciseAndReported_ok :
    let s := fetching [(0x200, 0x12)]
    s.halted = false ∧ stepFault s = none ∧ stepWith defaultParams s = .next s := ⟨rfl, rfl, rfl⟩

/-- Each fault a step can raise. -/
theorem witness_FaultsArePreciseAndReported_faults :
    stepFault State.reset = some { kind := .decodeFault, opcode := 0, pc := 0x0200 }
    ∧ stepFault { State.reset with pc := 0x0FFF } = some { kind := .outOfBoundsFetch, opcode := 0, pc := 0x0FFF }
    ∧ stepFault { fetching [(0x200, 0x22)] with sp := 16 } = some { kind := .stackOverflow, opcode := 0x2200, pc := 0x0200 }
    ∧ stepFault (fetching [(0x201, 0xEE)]) = some { kind := .stackUnderflow, opcode := 0x00EE, pc := 0x0200 }
    ∧ stepFault { fetching [(0x200, 0xF0), (0x201, 0x65)] with i := 0x1000 }
        = some { kind := .outOfBoundsAccess, opcode := 0xF065, pc := 0x0200 } := by decide

theorem witness_FaultsArePreciseAndReported_next :
    ∃ t, stepWith defaultParams State.reset = .next t ∧ stepFault State.reset ≠ none := ⟨_, rfl, by decide⟩

/-- A state that waits for a key, with the stack full, at the last address `PC` can have with memory behind it. -/
def waiting : State :=
  { fetching [(0xFFE, 0xF0), (0xFFF, 0x0A)] with
    pc := 0x0FFE, sp := 16, stack := Vector.replicate 16 0x1000, kwValid := true }

/-- A state of the invariant in which every clause has something to say. -/
theorem waiting_inv : Inv defaultParams waiting where
  sp_le := by decide
  pc_le := by decide
  stack_le := by decide
  mem_wf := by decide
  waiting := fun _ => ⟨rfl, 0xF00A#16, 0x0#4, by decide, by decide⟩
  halted_fault := fun h => absurd h (by decide)
  fault_halted := fun _ h => absurd rfl h

/-- A halted state of the invariant, `PC` at its greatest value. -/
def stopped : State := { State.reset with pc := 0x10FE, halted := true, fcode := 4, fpc := 0x10FE }

theorem stopped_inv : Inv defaultParams stopped where
  sp_le := by decide
  pc_le := by decide
  stack_le := by decide
  mem_wf := by decide
  waiting := fun h => absurd h (by decide)
  halted_fault := fun _ => by decide
  fault_halted := fun _ _ => rfl

theorem witness_EveryTransactionAnswers : Inv defaultParams waiting ∧ Inv defaultParams stopped :=
  ⟨waiting_inv, stopped_inv⟩

theorem witness_StepKeepsTheInvariants : ∃ t, Inv defaultParams waiting ∧ step waiting = .next t :=
  ⟨_, waiting_inv, rfl⟩

theorem witness_EveryReachableStateMeetsTheInvariants :
    (∃ t, Inv defaultParams waiting ∧ transact defaultParams (.setKey 0 true) waiting = .next t)
    ∧ Reachable defaultParams { construct defaultParams [0x12, 0x00] with draws := 0 } :=
  ⟨⟨_, waiting_inv, rfl⟩, .launch _ _⟩

/-- A return from full depth. -/
theorem witness_PcAfterEachInstruction_ret :
    let s : State := { running with sp := 16, stack := Vector.replicate 16 0x1000 }
    instrFault .ret s = none ∧ (nextOf (exec .ret s)).map (·.pc) = some 0x1000#16 := by decide

/-- A key wait that completes and one that stays. -/
theorem witness_PcAfterEachInstruction_wait :
    instrFault (.ldVxK 0) running = none
    ∧ (nextOf (exec (.ldVxK 0) { running with kwValid := true, key := 1 })).isSome = true
    ∧ (nextOf (exec (.ldVxK 0) running)).isSome = true := by decide

theorem witness_SelfJumpIsAFixedPoint :
    let s := fetching [(0x200, 0x12)]
    s.halted = false ∧ s.pc = (0x200#12).setWidth 16 ∧ fetchWord s = some (encodeWord (.jp 0x200)) := by decide

theorem witness_OnlyListedRegistersChange :
    ∃ t, exec (.ldI 0xA 1) running = .next t ∧ (0xB#4) ∉ writtenRegs (.ldI 0xA 1) := ⟨_, rfl, by decide⟩

theorem witness_OnlyStoresAndConstructChangeMemory :
    let s : State := withRegs [(0, 0x12)] { fetching [(0x200, 0xF0), (0x201, 0x55)] with i := 0x0FFF }
    ∃ t, transact defaultParams .step s = .next t ∧ t.mem ≠ s.mem := ⟨_, rfl, by decide⟩

theorem witness_OnlyClearDrawAndConstructChangePixels :
    let s : State := fetching [(0x200, 0xD0), (0x201, 0x01)]
    ∃ t, transact defaultParams .step s = .next t ∧ t.fb ≠ s.fb := ⟨_, rfl, by decide⟩

/-- Each special register changed by some instruction. -/
theorem witness_OnlyNamedInstructionsChangeSpecialRegisters :
    (nextOf (exec (.addIdx 1) (setup [(1, 1)] 0 []))).map (·.i) = some 1#16
    ∧ (nextOf (exec (.ldDtVx 1) (setup [(1, 1)] 0 []))).map (·.dt) = some 1#8
    ∧ (nextOf (exec (.ldStVx 1) (setup [(1, 1)] 0 []))).map (·.st) = some 1#8
    ∧ (nextOf (exec (.call 0x200) running)).map (fun t => (t.sp, t.stack[0])) = some (1#5, 0x0202#16)
    ∧ (nextOf (exec (.ldVxK 1) running)).map (·.kwValid) = some true := by decide

theorem witness_CallPushesOrOverflows :
    let s : State := { running with sp := 15 }
    let f : State := { running with sp := 16 }
    s.sp.toNat < 16 ∧ f.sp = 16#5 := by decide

theorem witness_ReturnPopsOrUnderflows :
    let s : State := { running with sp := 16 }
    let e : State := { running with sp := 0 }
    s.sp.toNat = (15 : Fin 16).val + 1 ∧ e.sp = 0#5 := by decide

theorem witness_NoSlotBeyondSixteen :
    let s : State := { running with sp := 17 }
    let l : State := { running with sp := 31 }
    16 < s.sp.toNat ∧ 16 < l.sp.toNat := by decide

/-- S4's instance, at the last depth that can call. -/
theorem witness_CallThenReturnComesBack :
    let s : State := { fetching [(0x201, 0xEE), (0x300, 0x22)] with pc := 0x0300, sp := 15 }
    s.halted = false ∧ s.sp.toNat < 16 ∧ fetchWord s = some (encodeWord (.call 0x200)) ∧ (0x200#12).toNat ≤ 0xFFE
    ∧ Memory.read s.mem 0x200 = 0x00#8 ∧ Memory.read s.mem 0x201 = 0xEE#8 := by decide

/-- The register clauses of the add, the subtractions and the shifts: a register that is not the flag, and the flag. -/
theorem witness_flag_clauses : (0xE#4 : RegNum) ≠ 0xF#4 ∧ ∃ x : RegNum, x = 0xF#4 := ⟨by decide, _, rfl⟩

/-- A mask with a bit that is 0. -/
theorem witness_RandomLoadIsMasked : 7 < 8 ∧ (0x7F#8).getLsbD 7 = false := by decide

theorem witness_DecimalStoreWritesThreeDigits :
    let s := setup [(5, 0xFF)] 0x0FFD []
    Memory.wf s.mem ∧ s.i.toNat + 2 ≤ 0xFFF := by decide

theorem witness_RegisterStoreWritesTheBlock :
    let s := setup [(0, 1)] 0x0FF0 [(0x200, 1)]
    Memory.wf s.mem ∧ s.i.toNat + (0xF#4).toNat ≤ 0xFFF := by decide

theorem witness_RegisterLoadReadsTheBlock :
    let s := setup [] 0x0FFF []
    s.i.toNat + (0x0#4).toNat ≤ 0xFFF := by decide

theorem witness_OutOfBoundsAccessChangesNothingElse :
    0xFFF < (setup [] 0x0FFE []).i.toNat + 2 ∧ 0xFFF < (setup [] 0x0FF1 []).i.toNat + (0xF#4).toNat
    ∧ 0 < (0x1#4).toNat ∧ 0x1000 < (setup [] 0x1000 []).i.toNat + (0x1#4).toNat := by decide

theorem witness_StoreThenLoadRestoresRegisters :
    let s := setup [(0, 0x7E)] 0x0FF0 []
    Memory.wf s.mem ∧ s.i.toNat + (0xF#4).toNat ≤ 0xFFF ∧ (nextOf (exec (.ldMemVx 0xF) s)).isSome = true := by decide

theorem witness_StoreIsSeenByTheNextFetch :
    let s := setup [(0, 0x12), (1, 0x08)] 0x0FFE []
    Memory.wf s.mem ∧ 1 ≤ (0x1#4).toNat ∧ s.i.toNat + (0x1#4).toNat ≤ 0xFFF
    ∧ (nextOf (exec (.ldMemVx 1) s)).isSome = true := by decide

/-- No row at any `I`, and the last base for 15 rows. -/
theorem witness_DrawTogglesThePixelsUnderTheSprite_bounds :
    (0x0#4).toNat = 0 ∧ (setup [] 0x0FF1 []).i.toNat + (0xF#4).toNat ≤ 0x1000 := by decide

/-- A pixel under the sprite at the right and lower edges, and one that is not. -/
theorem witness_DrawTogglesThePixelsUnderTheSprite_pixels :
    let s := setup [(0, 0xFF), (1, 0xFF)] 0x0300 [(0x300, 0x80)]
    spriteCovers s 0 1 1 63 31 ∧ ¬ spriteCovers s 0 1 1 0 0 := by
  refine ⟨⟨0, by decide, 0, by decide, by decide, by decide, by decide⟩, ?_⟩
  rintro ⟨row, hrow, col, hcol, hbit, hx, -⟩
  obtain rfl : row = 0 := by simpa using hrow
  interval_cases col <;> revert hbit hx <;> decide

/-- A drawing with a collision, and one without. -/
theorem witness_DrawTogglesThePixelsUnderTheSprite_collision :
    let s : State := { setup [] 0x0300 [(0x300, 0x80)] with fb := State.reset.fb.set 0 1 }
    (∃ px py, spriteCovers s 0 1 1 px py ∧ pixel s.fb px py = true)
    ∧ ¬ ∃ px py, spriteCovers running 0 1 1 px py ∧ pixel running.fb px py = true := by
  refine ⟨⟨0, 0, ⟨0, by decide, 0, by decide, by decide, by decide, by decide⟩, by decide⟩, ?_⟩
  rintro ⟨px, py, -, h⟩
  exact absurd h (by rw [show pixel running.fb px py = false from pixel_clearBuffer px py]; exact Bool.noConfusion)

theorem witness_DrawingTwiceRestoresTheBuffer :
    let s := setup [(0xE, 62), (1, 30)] 0x0FFB [(0xFFF, 0xFF)]
    (0xE#4 : RegNum) ≠ 0xF#4 ∧ (0x1#4 : RegNum) ≠ 0xF#4 ∧ s.i.toNat + (0x5#4).toNat ≤ 0x1000
    ∧ (nextOf (exec (.drw 0xE 1 5) s)).isSome = true := by decide

theorem witness_DrawAfterClearIsTheSprite :
    ∃ t, running.i.toNat + (0xF#4).toNat ≤ 0x1000 ∧ exec .cls running = .next t := ⟨_, by decide, rfl⟩

/-- Not armed; armed and no key went down; armed and the least key that went down is 0, and is 15. -/
theorem witness_KeyWaitArmsStaysAndCompletes :
    let held : State := { running with kwValid := true, key := 0x8001, kwPrev := 0x8001 }
    let low : State := { running with kwValid := true, key := 0xFFFF }
    let high : State := { running with kwValid := true, key := 0xFFFF, kwPrev := 0x7FFF }
    running.kwValid = false
    ∧ (held.kwValid = true ∧ ∀ k, ¬ keyWentDown held k)
    ∧ (low.kwValid = true ∧ keyWentDown low 0 ∧ ∀ j : KeyNum, j.toNat < (0#4).toNat → ¬ keyWentDown low j)
    ∧ (high.kwValid = true ∧ keyWentDown high 15 ∧ ∀ j : KeyNum, j.toNat < (15#4).toNat → ¬ keyWentDown high j) := by
  unfold keyWentDown
  decide

theorem witness_ConstructBuildsTheLaunchState : (List.replicate 3584 (0x99 : Byte)).length ≤ 3584 := by
  rw [List.length_replicate]

theorem witness_OversizedImageNeverStarts : 3584 < (List.replicate 3585 (0x99 : Byte)).length := by
  rw [List.length_replicate]; decide

end Sys2Proof.Tests
end

section
/-! PROOFS. Encoding (O2, O4): decoding inverts encoding, every word that decodes is an encoding, and a word that some
row of the opcode table accepts decodes (R91, R93, R94). -/

namespace Sys2Proof

/-! ## A word put together again from its fields -/

section Recompose

variable {w : Word} {f : BitVec 4}

theorem encodeNNN_fields (hf : w.extractLsb' 12 4 = f) : encodeNNN f (fieldNNN w) = w :=
  hf ▸ family_nnn_append w

theorem encodeXKK_fields {kk : Byte} (hf : w.extractLsb' 12 4 = f) (hk : fieldKK w = kk) :
    encodeXKK f (fieldX w) kk = w :=
  hf ▸ hk ▸ family_x_kk_append w

theorem encodeXYN_fields {n : BitVec 4} (hf : w.extractLsb' 12 4 = f) (hn : fieldN w = n) :
    encodeXYN f (fieldX w) (fieldY w) n = w :=
  hf ▸ hn ▸ nibbles_append w

end Recompose

/-! ## Decoding inverts encoding -/

theorem decodeWord_encodeWord (i : Instr) : decodeWord (encodeWord i) = some i := by
  cases i with
  | cls | ret => decide
  | jp | call | ldIdx | jpV0 =>
    unfold encodeWord decodeWord
    rw [family_encodeNNN, nnn_encodeNNN]
    rfl
  | seI | sneI | ldI | addI | rnd | skp | sknp | ldVxDt | ldVxK | ldDtVx | ldStVx | addIdx | ldF | ldB | ldMemVx
  | ldVxMem =>
    unfold encodeWord decodeWord
    rw [family_encodeXKK, x_encodeXKK, kk_encodeXKK]
    rfl
  | seR | ldR | orR | andR | xorR | addR | sub | shr | subn | shl | sneR | drw =>
    unfold encodeWord decodeWord
    rw [family_encodeXYN, x_encodeXYN, y_encodeXYN, n_encodeXYN]
    rfl

/-- The table's 16-bit number of a word is the word. -/
theorem tableWord_toNat (w : Word) : tableWord 16 w.toNat = w := by
  unfold tableWord
  rw [Nat.mod_eq_of_lt w.isLt, BitVec.ofNat_toNat, BitVec.setWidth_eq]

/-! ## The word of an instruction is legal -/

theorem wellFormed_family_eq (w : Word) : WellFormed.family w = (w.extractLsb' 12 4).toNat := by
  simp only [WellFormed.family, BitVec.extractLsb'_toNat, Nat.shiftRight_eq_div_pow, Nat.reducePow]
  omega

theorem wellFormed_lowNibble_eq (w : Word) : WellFormed.lowNibble w = (fieldN w).toNat := by
  simp [WellFormed.lowNibble, fieldN]

theorem wellFormed_lowByte_eq (w : Word) : WellFormed.lowByte w = (fieldKK w).toNat := by
  simp [WellFormed.lowByte, fieldKK]

/-- No field value makes the word of an instruction illegal (R94). -/
theorem wellFormed_encodeWord (i : Instr) : WellFormed.word (encodeWord i) = true := by
  unfold WellFormed.word WellFormed.illegalWord
  rw [wellFormed_family_eq, wellFormed_lowNibble_eq, wellFormed_lowByte_eq]
  cases i with
  | cls | ret => decide
  | jp | call | ldIdx | jpV0 => simp [encodeWord, family_encodeNNN]
  | seI | sneI | ldI | addI | rnd => simp [encodeWord, family_encodeXKK]
  | drw => simp [encodeWord, family_encodeXYN]
  | seR | sneR | ldR | orR | andR | xorR | addR | sub | shr | subn | shl =>
    simp [encodeWord, family_encodeXYN, n_encodeXYN]
  | skp | sknp | ldVxDt | ldVxK | ldDtVx | ldStVx | addIdx | ldF | ldB | ldMemVx | ldVxMem =>
    simp [encodeWord, family_encodeXKK, kk_encodeXKK]

/-! ## A word that decodes is the encoding of its instruction -/

theorem encodeWord_of_decodeFamily0 {w : Word} {i : Instr} (h : decodeFamily0 w = some i) : encodeWord i = w := by
  unfold decodeFamily0 at h
  iterate 2
    rcases ite_eq_iff.1 h with ⟨rfl, ⟨⟩⟩ | ⟨-, h⟩
    · rfl
  cases h

theorem encodeWord_of_decodeFamily8 {x y n : BitVec 4} {i : Instr} (h : decodeFamily8 x y n = some i) :
    encodeWord i = encodeXYN 0x8#4 x y n := by
  unfold decodeFamily8 at h
  iterate 9
    rcases ite_eq_iff.1 h with ⟨rfl, ⟨⟩⟩ | ⟨-, h⟩
    · rfl
  cases h

theorem encodeWord_of_decodeFamilyE {x : RegNum} {kk : Byte} {i : Instr} (h : decodeFamilyE x kk = some i) :
    encodeWord i = encodeXKK 0xE#4 x kk := by
  unfold decodeFamilyE at h
  iterate 2
    rcases ite_eq_iff.1 h with ⟨rfl, ⟨⟩⟩ | ⟨-, h⟩
    · rfl
  cases h

theorem encodeWord_of_decodeFamilyF {x : RegNum} {kk : Byte} {i : Instr} (h : decodeFamilyF x kk = some i) :
    encodeWord i = encodeXKK 0xF#4 x kk := by
  unfold decodeFamilyF at h
  iterate 9
    rcases ite_eq_iff.1 h with ⟨rfl, ⟨⟩⟩ | ⟨-, h⟩
    · rfl
  cases h

/-- Decoding drops no bit (R91). -/
theorem encodeWord_of_decodeWord {w : Word} {i : Instr} (h : decodeWord w = some i) : encodeWord i = w := by
  unfold decodeWord at h
  rcases ite_eq_iff.1 h with ⟨hf, h⟩ | ⟨n0, h⟩
  · exact encodeWord_of_decodeFamily0 h
  rcases ite_eq_iff.1 h with ⟨hf, ⟨⟩⟩ | ⟨n1, h⟩
  · exact encodeNNN_fields hf
  rcases ite_eq_iff.1 h with ⟨hf, ⟨⟩⟩ | ⟨n2, h⟩
  · exact encodeNNN_fields hf
  rcases ite_eq_iff.1 h with ⟨hf, ⟨⟩⟩ | ⟨n3, h⟩
  · exact encodeXKK_fields hf rfl
  rcases ite_eq_iff.1 h with ⟨hf, ⟨⟩⟩ | ⟨n4, h⟩
  · exact encodeXKK_fields hf rfl
  rcases ite_eq_iff.1 h with ⟨hf, h⟩ | ⟨n5, h⟩
  · obtain ⟨hn, ⟨⟩⟩ | ⟨-, ⟨⟩⟩ := ite_eq_iff.1 h
    exact encodeXYN_fields hf hn
  rcases ite_eq_iff.1 h with ⟨hf, ⟨⟩⟩ | ⟨n6, h⟩
  · exact encodeXKK_fields hf rfl
  rcases ite_eq_iff.1 h with ⟨hf, ⟨⟩⟩ | ⟨n7, h⟩
  · exact encodeXKK_fields hf rfl
  rcases ite_eq_iff.1 h with ⟨hf, h⟩ | ⟨n8, h⟩
  · exact (encodeWord_of_decodeFamily8 h).trans (encodeXYN_fields hf rfl)
  rcases ite_eq_iff.1 h with ⟨hf, h⟩ | ⟨n9, h⟩
  · obtain ⟨hn, ⟨⟩⟩ | ⟨-, ⟨⟩⟩ := ite_eq_iff.1 h
    exact encodeXYN_fields hf hn
  rcases ite_eq_iff.1 h with ⟨hf, ⟨⟩⟩ | ⟨nA, h⟩
  · exact encodeNNN_fields hf
  rcases ite_eq_iff.1 h with ⟨hf, ⟨⟩⟩ | ⟨nB, h⟩
  · exact encodeNNN_fields hf
  rcases ite_eq_iff.1 h with ⟨hf, ⟨⟩⟩ | ⟨nC, h⟩
  · exact encodeXKK_fields hf rfl
  rcases ite_eq_iff.1 h with ⟨hf, ⟨⟩⟩ | ⟨nD, h⟩
  · exact encodeXYN_fields hf rfl
  rcases ite_eq_iff.1 h with ⟨hf, h⟩ | ⟨nE, h⟩
  · exact (encodeWord_of_decodeFamilyE h).trans (encodeXKK_fields hf rfl)
  have hf : w.extractLsb' 12 4 = 0xF#4 := by bv_omega
  exact (encodeWord_of_decodeFamilyF h).trans (encodeXKK_fields hf rfl)

/-! ## The rows of the opcode table -/

theorem mem_opcodeTable {r : OpcodeRow} (h : r ∈ opcodeTable) : ∃ i, opcodeRow i = r := by
  rw [opcodeTable, ← List.map_append, ← List.map_append, ← List.map_append] at h
  obtain ⟨i, -, hi⟩ := List.mem_map.1 h
  exact ⟨i, hi⟩

theorem and_mask_eq_of_accepts {r : OpcodeRow} {w : Word} (h : r.accepts w = true) : w &&& r.mask = r.bits :=
  eq_of_beq h

/-- Where a row's mask is all ones, a word that the row accepts has the row's bits. -/
theorem slice_eq_of_accepts {r : OpcodeRow} {w : Word} {lo n : Nat} {b : BitVec n} (h : r.accepts w = true)
    (hm : r.mask.extractLsb' lo n = BitVec.allOnes n) (hb : r.bits.extractLsb' lo n = b) : w.extractLsb' lo n = b := by
  rw [← hb, ← and_mask_eq_of_accepts h, BitVec.extractLsb'_and, hm, BitVec.and_allOnes]

/-- A word matches at most one row (R93, R97). -/
theorem opcodeRow_unique_of_accepts {r q : OpcodeRow} {w : Word} (hr : r ∈ opcodeTable) (hq : q ∈ opcodeTable)
    (hrw : r.accepts w = true) (hqw : q.accepts w = true) : r = q := by
  have : Std.Symm fun r q : OpcodeRow => r.bits &&& q.mask ≠ q.bits &&& r.mask := ⟨fun _ _ h => h.symm⟩
  by_contra hne
  refine opcodeTable_disjoint.forall hr hq hne ?_
  rw [← and_mask_eq_of_accepts hrw, ← and_mask_eq_of_accepts hqw]
  ac_rfl

open Laws.EncodingFitsRow in
/-- The word of an instruction matches the instruction's row, a row of the table. -/
theorem encodingFitsRow (i : Instr) : Statement i := by
  cases i
  exacts [cls, ret, jp _, call _, seI _ _, sneI _ _, seR _ _, ldI _ _, addI _ _, ldR _ _, orR _ _, andR _ _, xorR _ _,
    addR _ _, sub _ _, shr _ _, subn _ _, shl _ _, sneR _ _, ldIdx _, jpV0 _, rnd _ _, drw _ _ _, skp _, sknp _, ldVxDt _,
    ldVxK _, ldDtVx _, ldStVx _, addIdx _, ldF _, ldB _, ldMemVx _, ldVxMem _]

/-- A word that a row accepts decodes: the bits the row fixes are all the bits the decoder tests (R93, R94). -/
theorem isSome_decodeWord_of_accepts {w : Word} (i : Instr) (h : (opcodeRow i).accepts w = true) :
    (decodeWord w).isSome = true := by
  cases i <;> dsimp only [opcodeRow] at h
  case cls | ret =>
    obtain rfl : w = _ := (slice_all w).symm.trans (slice_eq_of_accepts h rfl rfl)
    rfl
  all_goals
    have hf := slice_eq_of_accepts (lo := 12) (n := 4) h rfl rfl
    unfold decodeWord
    rw [hf]
  case jp | call | seI | sneI | ldI | addI | ldIdx | jpV0 | rnd | drw => rfl
  case seR | ldR | orR | andR | xorR | addR | sub | shr | subn | shl | sneR =>
    have hn : fieldN w = _ := slice_eq_of_accepts h rfl rfl
    rw [hn]
    rfl
  case skp | sknp | ldVxDt | ldVxK | ldDtVx | ldStVx | addIdx | ldF | ldB | ldMemVx | ldVxMem =>
    have hk : fieldKK w = _ := slice_eq_of_accepts h rfl rfl
    rw [hk]
    rfl

/-- The illegal words are those that no row of the table accepts (R93). -/
theorem decodeWord_eq_none_iff (w : Word) : decodeWord w = none ↔ ∀ r ∈ opcodeTable, r.accepts w = false := by
  constructor
  · intro hw r hr
    obtain ⟨i, rfl⟩ := mem_opcodeTable hr
    refine Bool.eq_false_iff.2 fun hacc => ?_
    have hsome := isSome_decodeWord_of_accepts i hacc
    rw [hw] at hsome
    cases hsome
  · intro hall
    cases hw : decodeWord w with
    | none => rfl
    | some i =>
      obtain ⟨hacc, hmem⟩ := encodingFitsRow i
      rw [encodeWord_of_decodeWord hw, hall _ hmem] at hacc
      cases hacc

/-! ## The obligations -/

/-- Settles O2: the decoder reads the fields back format by format, and the word's family and low bits are legal ones. -/
theorem decodeOfEncodeIsTheInstruction : Obligations.DecodeOfEncodeIsTheInstruction := by
  intro i rest
  have hdec := decodeWord_encodeWord i
  refine ⟨rfl, ?_, ?_, wellFormed_encodeWord i⟩
  · rw [encode, decode_wordBytes_append, hdec]
  · rw [decodeTableWord, tableWord_toNat, decode_wordBytes, hdec]

/-- Settles O4: a word that decodes is its instruction's encoding, which fits the instruction's row; rows are disjoint. -/
theorem decodeSelectsTheOnlyMatchingRow : Obligations.DecodeSelectsTheOnlyMatchingRow := by
  refine ⟨rfl, fun w i hw => ?_, decodeWord_eq_none_iff⟩
  obtain ⟨hacc, hmem⟩ := encodingFitsRow i
  rw [encodeWord_of_decodeWord hw] at hacc
  exact ⟨hacc, hmem, fun r hr hrw => opcodeRow_unique_of_accepts hr hmem hrw hacc⟩

end Sys2Proof
end

section
/-! PROOFS. Flow (O22, O27): the word the encoder gives decodes back, the jumps and the skips write only
`PC`, and the sum of a `Bnnn` stays below 2^16 (R95, R151, R153 to R157). -/

namespace Sys2Proof

open Machine Safety

/-! ## The encoding of an instruction -/

/-- A word that is the encoding of an instruction decodes to it, so the first half of `encodedAs` gives the second. -/
theorem encodedAs_of_encodeWord_eq {i : Instr} {w : Word} (h : encodeWord i = w) : encodedAs i w :=
  ⟨h, h ▸ decodeWord_encodeWord i⟩

/-! ## The jump target -/

/-- The greatest sum, `0xFFF + 0xFF`, fits in 16 bits. -/
theorem toNat_wideAddr_add_wideByte (nnn : Addr12) (b : Byte) :
    (wideAddr nnn + wideByte b).toNat = nnn.toNat + b.toNat := by
  unfold wideAddr wideByte
  bv_omega

/-! ## The skips as a write of `PC` -/

section Skip

variable (s : State)

theorem skipIf_eq (c : Bool) : skipIf c s = { s with pc := if c then s.pc + 2#16 else s.pc } := by
  cases c <;> rfl

theorem skipIf_beq (a b : Byte) : skipIf (a == b) s = { s with pc := if a = b then s.pc + 2#16 else s.pc } := by
  simp only [skipIf_eq, beq_iff_eq]

theorem skipIf_bne (a b : Byte) : skipIf (a != b) s = { s with pc := if a = b then s.pc else s.pc + 2#16 } := by
  simp only [skipIf_eq, bne_iff_ne, ne_eq, ite_not]

end Skip

/-! ## The obligations -/

/-- Settles O22: both jumps are one write of `PC`, and the sum of the second is not reduced. -/
theorem jumpsSetThePc : Obligations.JumpsSetThePc := by
  intro s nnn
  refine ⟨⟨encodedAs_of_encodeWord_eq (encodeNNN_eq_or 0x1#4 nnn), rfl⟩,
    encodedAs_of_encodeWord_eq (encodeNNN_eq_or 0xB#4 nnn), _, rfl, ?_, rfl⟩
  exact toNat_wideAddr_add_wideByte nnn (readReg s 0x0#4)

/-- Settles O27: each skip is `skipIf` on an equality or an inequality of two bytes. -/
theorem skipsCompareRegisters : Obligations.SkipsCompareRegisters := by
  intro s x y kk
  refine ⟨?seI, ?sneI, ?seR, ?sneR⟩
  case seI =>
    exact ⟨encodedAs_of_encodeWord_eq (encodeXKK_eq_or 0x3#4 x kk),
      congrArg Host.Outcome.next (skipIf_beq s _ _)⟩
  case sneI =>
    exact ⟨encodedAs_of_encodeWord_eq (encodeXKK_eq_or 0x4#4 x kk),
      congrArg Host.Outcome.next (skipIf_bne s _ _)⟩
  case seR =>
    exact ⟨encodedAs_of_encodeWord_eq (encodeXYN_eq_or 0x5#4 x y 0x0#4),
      congrArg Host.Outcome.next (skipIf_beq s _ _)⟩
  case sneR =>
    exact ⟨encodedAs_of_encodeWord_eq (encodeXYN_eq_or 0x9#4 x y 0x0#4),
      congrArg Host.Outcome.next (skipIf_bne s _ _)⟩

end Sys2Proof
end

section
/-! PROOFS. Register load and ALU (O28): an instruction that writes one byte to one register changes that register and
nothing else (R170 to R172). -/

namespace Sys2Proof

open Machine Safety

/-! ## One register write -/

/-- The frame of a register write; it asks nothing of `x`, so `x = 0xF` is a destination like any other (R171). -/
theorem onlyRegsChange_writeReg (s : State) (x : RegNum) (b : Byte) : onlyRegsChange [x] s (writeReg x b s) := by
  refine ⟨fun y hy => ?_, fun _ => rfl, rfl⟩
  exact readReg_writeReg_ne s x y b (List.ne_of_not_mem_cons hy)

/-- What an instruction that is one register write does: it completes, `V[x]` holds the byte, the rest is kept. -/
theorem exists_next_of_exec_eq_writeReg {i : Instr} {s : State} {x : RegNum} {b : Byte}
    (h : exec i s = .next (writeReg x b s)) :
    ∃ t, exec i s = .next t ∧ readReg t x = b ∧ onlyRegsChange [x] s t :=
  ⟨_, h, readReg_writeReg_same s x b, onlyRegsChange_writeReg s x b⟩

/-! ## The obligation -/

/-- Settles O28: each of the three is one register write, of `kk`, of the 8-bit sum, or of `V[y]`. -/
theorem loadsAndImmediateAdd : Obligations.LoadsAndImmediateAdd := by
  intro s x y kk
  refine ⟨⟨encodedAs_of_encodeWord_eq (encodeXKK_eq_or 0x6#4 x kk), ?ldI⟩,
    ⟨encodedAs_of_encodeWord_eq (encodeXKK_eq_or 0x7#4 x kk), ?addI⟩,
    ⟨encodedAs_of_encodeWord_eq (encodeXYN_eq_or 0x8#4 x y 0x0#4), ?ldR⟩⟩
  case ldI => exact exists_next_of_exec_eq_writeReg rfl
  case addI =>
    obtain ⟨t, hexec, hsum, hframe⟩ :=
      exists_next_of_exec_eq_writeReg (i := .addI x kk) (s := s) (b := readReg s x + kk) rfl
    exact ⟨t, hexec, hsum ▸ BitVec.toNat_add _ _, hframe⟩
  case ldR => exact exists_next_of_exec_eq_writeReg rfl

end Sys2Proof
end

section
/-! PROOFS. Display (O41): the clear is one write of the frame buffer, by the buffer that has no pixel on (R220). -/

namespace Sys2Proof

open Machine Safety

/-! ## What the clear does -/

/-- R220: the clear completes in every state, and the frame buffer is the one field it writes. -/
theorem exec_cls (s : State) : exec .cls s = .next { s with fb := clearBuffer } := rfl

/-! ## The obligation -/

/-- Settles O41: the buffer that `exec_cls` writes has every pixel off by `pixel_clearBuffer`. -/
theorem clearTurnsEveryPixelOff : Obligations.ClearTurnsEveryPixelOff := by
  intro s
  exact ⟨encodedAs_of_encodeWord_eq rfl, _, exec_cls s, pixel_clearBuffer, rfl⟩

end Sys2Proof
end

section
/-! PROOFS. Timers (O47): a move out of a timer is one register write, and a move into a timer writes that timer and
nothing else (R233 to R235). -/

namespace Sys2Proof

open Machine Safety

/-! ## The encoding of an `x`-only word -/

/-- A word whose only operand is `x` is its row's fixed bits with `x` at its place (R91, R95). -/
theorem encodeXKK_eq_or_atX (f : BitVec 4) (x : RegNum) (kk : Byte) :
    encodeXKK f x kk = ((f.setWidth 16 <<< 12) ||| kk.setWidth 16) ||| atX x := by
  rw [encodeXKK_eq_or, atX, BitVec.or_assoc, BitVec.or_comm (x.setWidth 16 <<< 8), ← BitVec.or_assoc]

/-! ## What the moves do -/

section Moves

variable (x : RegNum) (s : State)

/-- R233: the value written is `DT` as it stands. -/
theorem exec_ldVxDt : exec (.ldVxDt x) s = .next (writeReg x s.dt s) := rfl

/-- R234: `DT` is the one field written. -/
theorem exec_ldDtVx : exec (.ldDtVx x) s = .next { s with dt := readReg s x } := rfl

/-- R235: `ST` is the one field written. -/
theorem exec_ldStVx : exec (.ldStVx x) s = .next { s with st := readReg s x } := rfl

end Moves

/-! ## The obligation -/

/-- Settles O47: `Fx07` is one register write, whose frame keeps `DT`; `Fx15` and `Fx18` each write one timer. -/
theorem timerMoves : Obligations.TimerMoves := by
  intro s x
  refine ⟨⟨encodedAs_of_encodeWord_eq (encodeXKK_eq_or_atX 0xF#4 x 0x07#8), ?ldVxDt⟩,
    ⟨encodedAs_of_encodeWord_eq (encodeXKK_eq_or_atX 0xF#4 x 0x15#8), ?ldDtVx⟩,
    ⟨encodedAs_of_encodeWord_eq (encodeXKK_eq_or_atX 0xF#4 x 0x18#8), ?ldStVx⟩⟩
  case ldVxDt => exact exists_next_of_exec_eq_writeReg (exec_ldVxDt x s)
  case ldDtVx => exact exec_ldDtVx x s
  case ldStVx => exact exec_ldStVx x s

end Sys2Proof
end

section
/-! PROOFS. The words that are no instruction (O1, O3, O5): decoding gives nothing exactly on the listed words, and a
word that decodes is an encoding (R91, R95, R96, R98). -/

namespace Sys2Proof

/-! ## The families that leave words out -/

theorem ne_of_decodeFamily0_none {w : Word} (h : decodeFamily0 w = none) :
    (w != 0x00E0) = true ∧ (w != 0x00EE) = true := by
  unfold decodeFamily0 at h
  split_ifs at h with h0 h1
  exact ⟨bne_iff_ne.2 h0, bne_iff_ne.2 h1⟩

theorem lowNibble_of_fieldN_ne {n : BitVec 4} (h : n ≠ 0x0#4) : (n.toNat != 0) = true :=
  bne_iff_ne.2 (BitVec.toNat_ne.1 h)

theorem lowNibble_of_decodeFamily8_none {x y n : BitVec 4} (h : decodeFamily8 x y n = none) :
    [0x8, 0x9, 0xA, 0xB, 0xC, 0xD, 0xF].contains n.toNat = true := by
  unfold decodeFamily8 at h
  split_ifs at h
  simp
  bv_omega

theorem lowByte_of_decodeFamilyE_none {x : RegNum} {kk : Byte} (h : decodeFamilyE x kk = none) :
    [0x9E, 0xA1].contains kk.toNat = false := by
  unfold decodeFamilyE at h
  split_ifs at h
  simp
  bv_omega

theorem lowByte_of_decodeFamilyF_none {x : RegNum} {kk : Byte} (h : decodeFamilyF x kk = none) :
    [0x07, 0x0A, 0x15, 0x18, 0x1E, 0x29, 0x33, 0x55, 0x65].contains kk.toNat = false := by
  unfold decodeFamilyF at h
  split_ifs at h
  simp
  bv_omega

/-- Every word that does not decode is on the list (R96). -/
theorem illegalWord_of_decodeWord_none {w : Word} (h : decodeWord w = none) : WellFormed.illegalWord w = true := by
  unfold WellFormed.illegalWord
  rw [wellFormed_family_eq, wellFormed_lowNibble_eq, wellFormed_lowByte_eq]
  unfold decodeWord at h
  obtain ⟨hf, h⟩ | ⟨n0, h⟩ := ite_eq_iff.1 h
  · obtain ⟨hcls, hret⟩ := ne_of_decodeFamily0_none h
    rw [hf, hcls, hret]
    rfl
  iterate 4 obtain ⟨-, ⟨⟩⟩ | ⟨n1_4, h⟩ := ite_eq_iff.1 h
  obtain ⟨hf, h⟩ | ⟨n5, h⟩ := ite_eq_iff.1 h
  · obtain ⟨-, ⟨⟩⟩ | ⟨hn, -⟩ := ite_eq_iff.1 h
    rw [hf, lowNibble_of_fieldN_ne hn]
    rfl
  iterate 2 obtain ⟨-, ⟨⟩⟩ | ⟨n6_7, h⟩ := ite_eq_iff.1 h
  obtain ⟨hf, h⟩ | ⟨n8, h⟩ := ite_eq_iff.1 h
  · rw [hf, lowNibble_of_decodeFamily8_none h]
    rfl
  obtain ⟨hf, h⟩ | ⟨n9, h⟩ := ite_eq_iff.1 h
  · obtain ⟨-, ⟨⟩⟩ | ⟨hn, -⟩ := ite_eq_iff.1 h
    rw [hf, lowNibble_of_fieldN_ne hn]
    rfl
  iterate 4 obtain ⟨-, ⟨⟩⟩ | ⟨nA_D, h⟩ := ite_eq_iff.1 h
  obtain ⟨hf, h⟩ | ⟨nE, h⟩ := ite_eq_iff.1 h
  · rw [hf, lowByte_of_decodeFamilyE_none h]
    rfl
  have hf : w.extractLsb' 12 4 = 0xF#4 := by bv_omega
  rw [hf, lowByte_of_decodeFamilyF_none h]
  rfl

/-- No word of the list decodes, because the encoding of an instruction is legal (R94). -/
theorem decodeWord_none_of_illegalWord {w : Word} (h : WellFormed.illegalWord w = true) : decodeWord w = none := by
  cases hi : decodeWord w with
  | none => rfl
  | some i =>
    have hlegal := wellFormed_encodeWord i
    rw [encodeWord_of_decodeWord hi, WellFormed.word, h] at hlegal
    cases hlegal

/-! ## The obligations -/

/-- Settles O1: the fourteen words are decoded as written, and the six are on the list of illegal words. -/
theorem wordsOfTheSpecDecode : Obligations.WordsOfTheSpecDecode := by
  unfold Obligations.WordsOfTheSpecDecode
  decide

/-- Settles O3: each branch of the decoder keeps the fields that put the word together again. -/
theorem encodeOfDecodeIsTheWord : Obligations.EncodeOfDecodeIsTheWord :=
  fun _ _ => encodeWord_of_decodeWord

/-- Settles O5: the families that leave words out leave out the listed ones, and no encoding is listed. -/
theorem illegalWordsAreTheListedOnes : Obligations.IllegalWordsAreTheListedOnes :=
  fun _ => ⟨illegalWord_of_decodeWord_none, decodeWord_none_of_illegalWord⟩

end Sys2Proof
end

section
/-! PROOFS. What an instruction does to each field (O12, O14, O17), said once: an instruction that raises no fault
leaves `PC` as its row says and writes only the fields its row names, and one that raises a fault writes the fault
record and `HALTED` alone (R21 to R36, R125, R256). -/

namespace Sys2Proof

open Machine Safety

/-! ## The effect of an instruction -/

/-- What an instruction that raises no fault does to each field. The default of a field is the proof that it is not
written, so an effect is proved by naming the fields that the instruction does write. -/
structure ExecEffect (i : Instr) (s t : State) : Prop where
  pc : pcRule i s t := by exact rfl
  regs : ∀ y ∉ writtenRegs i, readReg t y = readReg s y := by exact fun _ _ => rfl
  key : t.key = s.key := by exact rfl
  index : t.i ≠ s.i → (∃ nnn, i = .ldIdx nnn) ∨ (∃ x, i = .addIdx x) ∨ ∃ x, i = .ldF x := by exact (absurd rfl ·)
  dt : t.dt ≠ s.dt → ∃ x, i = .ldDtVx x ∧ t.dt = readReg s x := by exact (absurd rfl ·)
  st : t.st ≠ s.st → ∃ x, i = .ldStVx x ∧ t.st = readReg s x := by exact (absurd rfl ·)
  sp : t.sp ≠ s.sp → i = .ret ∨ ∃ nnn, i = .call nnn := by exact (absurd rfl ·)
  stack : t.stack ≠ s.stack → ∃ nnn, i = .call nnn := by exact (absurd rfl ·)
  fb : t.fb ≠ s.fb → i = .cls ∨ ∃ x y n, i = .drw x y n := by exact (absurd rfl ·)
  mem : t.mem ≠ s.mem → ∃ x, i = .ldB x ∨ i = .ldMemVx x := by exact (absurd rfl ·)
  mem_wf : Memory.wf s.mem → Memory.wf t.mem := by exact id
  latch : t.kwValid ≠ s.kwValid ∨ t.kwPrev ≠ s.kwPrev → ∃ x, i = .ldVxK x := by exact (·.elim (absurd rfl) (absurd rfl))
  draws : t.draws ≠ s.draws → ∃ x kk, i = .rnd x kk := by exact (absurd rfl ·)
  halted : t.halted = s.halted := by exact rfl
  fcode : t.fcode = s.fcode := by exact rfl
  fopc : t.fopc = s.fopc := by exact rfl
  fpc : t.fpc = s.fpc := by exact rfl

section Effects

variable {i : Instr} {s : State}

theorem execEffect_setPc {a : Word} (hpc : pcRule i s { s with pc := a }) : ExecEffect i s { s with pc := a } where
  pc := hpc

theorem execEffect_skipIf {c : Bool} (hpc : pcRule i s { s with pc := if c then s.pc + 2#16 else s.pc }) :
    ExecEffect i s (skipIf c s) :=
  skipIf_eq s c ▸ execEffect_setPc hpc

theorem readReg_writeReg_of_notMem {x y : RegNum} {b : Byte} (hx : x ∈ writtenRegs i) (hy : y ∉ writtenRegs i) :
    readReg (writeReg x b s) y = readReg s y :=
  readReg_writeReg_ne s x y b fun e => hy (e ▸ hx)

theorem execEffect_writeReg {x : RegNum} {b : Byte} (hx : x ∈ writtenRegs i) (hpc : pcRule i s (writeReg x b s)) :
    ExecEffect i s (writeReg x b s) where
  pc := hpc
  regs _ hy := readReg_writeReg_of_notMem hx hy

/-- Two register writes: the sums write the flag last, the shifts write it first (R185). -/
theorem execEffect_writeReg_writeReg {x z : RegNum} {b c : Byte} (hx : x ∈ writtenRegs i) (hz : z ∈ writtenRegs i)
    (hpc : pcRule i s (writeReg z c (writeReg x b s))) : ExecEffect i s (writeReg z c (writeReg x b s)) where
  pc := hpc
  regs _ hy := (readReg_writeReg_of_notMem hz hy).trans (readReg_writeReg_of_notMem hx hy)

end Effects

/-! ## The instructions that can fault, wait or reach memory -/

theorem dataFault_eq_none_iff (base : Word) (count : Nat) :
    dataFault base count = none ↔ dataInBounds base count = true := by
  unfold dataFault
  split <;> simp_all

/-- A store in bounds keeps the canonical form. -/
theorem wf_mem_storeAtIndex {s : State} {bs : List Byte} (hb : dataInBounds s.i bs.length = true)
    (hm : Memory.wf s.mem) : Memory.wf (storeAtIndex bs s).mem := by
  obtain h0 | hle := (dataInBounds_iff _ _).1 hb
  · obtain rfl := List.eq_nil_of_length_eq_zero h0
    exact hm
  · exact Memory.wf_writeBytes bs _ _ hm (by simp only [Config.memorySize]; omega)

/-- What a register reads after the register load (R205). -/
theorem readReg_loadRegs (s : State) (x y : RegNum) :
    readReg { s with v := loadRegs s.v 0 (bytesAtIndex s (x.toNat + 1)) } y =
      if y.toNat ≤ x.toNat then Memory.read s.mem (s.i.toNat + y.toNat) else readReg s y := by
  simp only [readReg, bytesAtIndex, getElem_loadRegs, Memory.length_readBytes]
  by_cases hle : y.toNat ≤ x.toNat
  · rw [if_pos (by omega), if_pos hle, Memory.getD_readBytes _ _ _ _ (by omega), Nat.sub_zero]
  · rw [if_neg (by omega), if_neg hle]

theorem mem_writtenRegs_ldVxMem {x y : RegNum} (h : y.toNat ≤ x.toNat) : y ∈ writtenRegs (.ldVxMem x) :=
  List.mem_map.2 ⟨y.toNat, List.mem_range.2 (by omega), by simp⟩

/-- A key wait stays, or completes on the least key that went down (R232). -/
theorem execLdVxK_cases {x : RegNum} {s t : State} (h : execLdVxK x s = .next t) :
    t = waitForKey s ∨ ∃ k, t = acceptKey x k s := by
  unfold execLdVxK at h
  split at h
  · split at h <;> cases h
    · exact .inr ⟨_, rfl⟩
    · exact .inl rfl
  · cases h
    exact .inl rfl

/-! ## Every instruction -/

/-- The effect of every instruction that raises no fault (R21 to R36, R125). -/
theorem execEffect_of_exec {i : Instr} {s t : State} (hf : instrFault i s = none) (h : exec i s = .next t) :
    ExecEffect i s t := by
  cases i with
  | jp nnn =>
    cases h
    exact execEffect_setPc (BitVec.toNat_setWidth_of_le (by decide))
  | jpV0 nnn => cases h; exact execEffect_setPc (toNat_wideAddr_add_wideByte nnn _)
  | seI | sneI | seR | sneR | skp | sknp => cases h; exact execEffect_skipIf (by simp [pcRule])
  | ldI | addI | ldR | orR | andR | xorR | ldVxDt => cases h; exact execEffect_writeReg (List.Mem.head _) rfl
  | addR | sub | subn =>
    cases h
    exact execEffect_writeReg_writeReg (List.Mem.head _) (List.Mem.tail _ (List.Mem.head _)) rfl
  | shr | shl =>
    cases h
    exact execEffect_writeReg_writeReg (List.Mem.tail _ (List.Mem.head _)) (List.Mem.head _) rfl
  | rnd x kk =>
    cases h
    exact { regs := fun _ => readReg_writeReg_of_notMem (List.Mem.head _), draws := fun _ => ⟨x, kk, rfl⟩ }
  | cls => cases h; exact { fb := fun _ => .inl rfl }
  | ldIdx nnn => cases h; exact { index := fun _ => .inl ⟨nnn, rfl⟩ }
  | addIdx x => cases h; exact { index := fun _ => .inr (.inl ⟨x, rfl⟩) }
  | ldF x => cases h; exact { index := fun _ => .inr (.inr ⟨x, rfl⟩) }
  | ldDtVx x => cases h; exact { dt := fun _ => ⟨x, rfl, rfl⟩ }
  | ldStVx x => cases h; exact { st := fun _ => ⟨x, rfl, rfl⟩ }
  | call nnn =>
    obtain ⟨h16, -⟩ | ⟨hs, rfl⟩ := execCall_cases h
    · simp [instrFault, h16] at hf
    · exact {
        pc := BitVec.toNat_setWidth_of_le (by decide)
        sp := fun _ => .inr ⟨nnn, rfl⟩
        stack := fun _ => ⟨nnn, rfl⟩ }
  | ret =>
    obtain ⟨h0, -⟩ | ⟨h0, hs, rfl⟩ := execRet_cases h
    · simp [instrFault, h0] at hf
    · have hpos : 0 < s.sp.toNat := by bv_omega
      have hsub := toNat_sp_sub_one s hpos
      exact { pc := ⟨hsub ▸ hs, by simp only [hsub]⟩, sp := fun _ => .inl rfl }
  | ldVxK x =>
    obtain rfl | ⟨k, rfl⟩ := execLdVxK_cases h
    · exact { latch := fun _ => ⟨x, rfl⟩ }
    · exact { regs := fun _ => readReg_writeReg_of_notMem (List.Mem.head _), latch := fun _ => ⟨x, rfl⟩ }
  | drw x y n =>
    cases (execDrw_of_inBounds x y n s ((dataFault_eq_none_iff _ _).1 hf)).symm.trans h
    exact { regs := fun _ => readReg_writeReg_of_notMem (List.Mem.head _), fb := fun _ => .inr ⟨x, y, n, rfl⟩ }
  | ldB x =>
    have hb := (dataFault_eq_none_iff _ _).1 hf
    cases (execLdB_of_inBounds x s hb).symm.trans h
    exact { mem := fun _ => ⟨x, .inl rfl⟩, mem_wf := wf_mem_storeAtIndex hb }
  | ldMemVx x =>
    have hb := (dataFault_eq_none_iff _ _).1 hf
    cases (execLdMemVx_of_inBounds x s hb).symm.trans h
    exact { mem := fun _ => ⟨x, .inr rfl⟩, mem_wf := wf_mem_storeAtIndex (by rwa [length_regsUpTo]) }
  | ldVxMem x =>
    cases (execLdVxMem_of_inBounds x s ((dataFault_eq_none_iff _ _).1 hf)).symm.trans h
    exact { regs := fun y hy =>
      (readReg_loadRegs s x y).trans (if_neg fun hle => hy (mem_writtenRegs_ldVxMem hle)) }

/-- An instruction that answers a next state takes its fault, or has its effect (R127, R250). -/
theorem exec_cases {i : Instr} {s t : State} (h : exec i s = .next t) :
    (∃ f, instrFault i s = some f ∧ f ≠ .decodeFault ∧ f ≠ .outOfBoundsFetch
        ∧ t = takeFault defaultParams f (encodeWord i) (fetchAddress s) s)
    ∨ (instrFault i s = none ∧ ExecEffect i s t) := by
  cases hf : instrFault i s with
  | some f =>
    obtain ⟨hexec, hdec, hfetch⟩ := exec_of_instrFault hf
    rw [hexec, faultIn_next] at h
    cases h
    exact .inl ⟨f, rfl, hdec, hfetch, rfl⟩
  | none => exact .inr ⟨rfl, execEffect_of_exec hf h⟩

/-! ## The obligations -/

/-- Settles O12: the `PC` clause of the instruction's effect. -/
theorem pcAfterEachInstruction : Obligations.PcAfterEachInstruction :=
  fun _ _ _ hf h => (execEffect_of_exec hf h).pc

/-- Settles O14: a fault writes no register, and the effect keeps those that are not listed. -/
theorem onlyListedRegistersChange : Obligations.OnlyListedRegistersChange := by
  intro i s t y h hy
  obtain ⟨f, -, -, -, rfl⟩ | ⟨-, heffect⟩ := exec_cases h
  · rfl
  · exact heffect.regs y hy

/-- Settles O17: a fault writes no special register, and the effect names the instructions that do. -/
theorem onlyNamedInstructionsChangeSpecialRegisters : Obligations.OnlyNamedInstructionsChangeSpecialRegisters := by
  intro i s t h
  obtain ⟨f, -, -, -, rfl⟩ | ⟨hf, heffect⟩ := exec_cases h
  · simp
  · exact ⟨heffect.key, heffect.index, heffect.dt, heffect.st, fun hsp => ⟨hf, heffect.sp hsp⟩,
      fun hstack => ⟨hf, heffect.stack hstack⟩, heffect.latch, heffect.draws⟩

end Sys2Proof
end

section
/-! PROOFS. The sequencer (O6 to O10, O13, O15, O16): a `Step` of a machine that is not halted takes its fault or runs
the decoded instruction, and every claim about a step follows from what that instruction may write (R123 to R129). -/

namespace Sys2Proof

open Machine Safety

/-! ## The branches of a step -/

section Branches

variable {p : Config.Params} {s : State}

theorem stepWith_of_halted (hh : s.halted = true) : stepWith p s = .next s := if_pos hh

theorem stepWith_of_fetchWord_none (hh : s.halted = false) (hw : fetchWord s = none) :
    stepWith p s = .next (takeFault p .outOfBoundsFetch 0x0000#16 s.pc s) := by
  simp [stepWith, hh, hw]

theorem stepWith_of_decodeWord_none {w : Word} (hh : s.halted = false) (hw : fetchWord s = some w)
    (hi : decodeWord w = none) : stepWith p s = .next (takeFault p .decodeFault w s.pc (advance s)) := by
  simp [stepWith, hh, hw, hi]

theorem stepWith_of_decodeWord_some {w : Word} {i : Instr} (hh : s.halted = false) (hw : fetchWord s = some w)
    (hi : decodeWord w = some i) : stepWith p s = exec i (advance s) := by
  simp [stepWith, hh, hw, hi]

theorem fetchWord_of_gt (h : 0xFFF ≤ s.pc.toNat) : fetchWord s = none := if_pos (by omega)

theorem stepFault_of_decodeWord_some {w : Word} {i : Instr} (hw : fetchWord s = some w) (hi : decodeWord w = some i) :
    stepFault s = (instrFault i (advance s)).map fun f => { kind := f, opcode := w, pc := s.pc } := by
  simp [stepFault, hw, hi]

theorem stepResponse_of_stepFault_none (hh : s.halted = false) (hf : stepFault s = none) : stepResponse s = .ok := by
  simp [stepResponse, hh, hf]

theorem stepResponse_of_stepFault_some {r : FaultReport} (hh : s.halted = false) (hf : stepFault s = some r) :
    stepResponse s = .fault r.kind.code r.opcode r.pc := by
  simp [stepResponse, hh, hf]

/-- The parameters play no part in a fault that halts always (R257). -/
theorem takeFault_defaultParams {f : FaultKind} (hf : f ≠ .decodeFault) (p : Config.Params) (o a : Word) (s : State) :
    takeFault defaultParams f o a s = takeFault p f o a s := by
  simp only [takeFault, halts_of_ne_decodeFault _ f hf]

/-- A fault of a machine that is not halted, field by field (R256). -/
theorem takeFault_of_not_halted (hh : s.halted = false) (p : Config.Params) (f : FaultKind) (o a : Word) :
    takeFault p f o a s = { s with fcode := f.code, fopc := o, fpc := a, halted := f.halts p } := by
  simp [takeFault, hh]

end Branches

/-- What a step of a machine that is not halted does: a fetch fault leaves `PC`, any other fault leaves it advanced, and
without a fault the decoded instruction has its effect (R123, R256, R259). -/
theorem stepWith_not_halted_cases {p : Config.Params} {s t : State} (hh : s.halted = false)
    (h : stepWith p s = .next t) :
    (stepFault s = some { kind := .outOfBoundsFetch, opcode := 0x0000#16, pc := s.pc }
      ∧ t = takeFault p .outOfBoundsFetch 0x0000#16 s.pc s)
    ∨ (∃ f w, f ≠ .outOfBoundsFetch ∧ s.pc.toNat ≤ 0xFFE
      ∧ stepFault s = some { kind := f, opcode := w, pc := s.pc } ∧ t = takeFault p f w s.pc (advance s))
    ∨ (∃ w i, stepFault s = none ∧ fetchWord s = some w ∧ decodeWord w = some i
      ∧ exec i (advance s) = .next t ∧ instrFault i (advance s) = none ∧ ExecEffect i (advance s) t) := by
  obtain ⟨hhalt, -⟩ | ⟨-, hw, rfl⟩ | ⟨-, w, hw, hi, rfl⟩ | ⟨-, w, i, hw, hi, hexec⟩ := stepWith_cases h
  · simp [hh] at hhalt
  · exact .inl ⟨by simp [stepFault, hw], rfl⟩
  · exact .inr (.inl ⟨.decodeFault, w, by decide, (fetchWord_eq_some hw).1, by simp [stepFault, hw, hi], rfl⟩)
  · have hstep := stepFault_of_decodeWord_some hw hi
    obtain ⟨f, hf, hdec, hfetch, rfl⟩ | ⟨hf, heffect⟩ := exec_cases hexec
    · refine .inr (.inl ⟨f, w, hfetch, (fetchWord_eq_some hw).1, by rw [hstep, hf]; rfl, ?_⟩)
      rw [encodeWord_of_decodeWord hi, fetchAddress_advance, takeFault_defaultParams hdec p]
    · exact .inr (.inr ⟨w, i, by rw [hstep, hf]; rfl, hw, hi, hexec, hf, heffect⟩)

/-- A transaction is a construction, keeps memory and the frame buffer, or is a step that raises no fault and runs an
instruction: neither a fault, nor a tick, a key or a read-out writes memory or a pixel (R72, R223). -/
theorem transact_display_memory_cases {p : Config.Params} {a : Transaction} {s t : State}
    (h : transact p a s = .next t) :
    (∃ img, a = .construct img) ∨ (t.mem = s.mem ∧ t.fb = s.fb)
    ∨ (a = .step ∧ s.halted = false ∧ ∃ w i, stepFault s = none ∧ fetchWord s = some w ∧ decodeWord w = some i
        ∧ ExecEffect i (advance s) t) := by
  cases a with
  | construct img => exact .inl ⟨img, rfl⟩
  | tickTimers | setKey | readFrameBuffer | readSound | readState => cases h; exact .inr (.inl ⟨rfl, rfl⟩)
  | step =>
    cases hh : s.halted with
    | true => cases (stepWith_of_halted hh).symm.trans h; exact .inr (.inl ⟨rfl, rfl⟩)
    | false =>
      obtain ⟨-, rfl⟩ | ⟨f, w, -, -, -, rfl⟩ | ⟨w, i, hf, hw, hi, -, -, heffect⟩ := stepWith_not_halted_cases hh h
      · exact .inr (.inl ⟨rfl, rfl⟩)
      · exact .inr (.inl ⟨rfl, rfl⟩)
      · exact .inr (.inr ⟨rfl, rfl, w, i, hf, hw, hi, heffect⟩)

/-! ## The obligations -/

/-- Settles O6: the fetch gives the two bytes joined, which the decoder answers. -/
theorem stepRunsTheDecodedInstruction : Obligations.StepRunsTheDecodedInstruction := by
  intro p s i hh hpc hi
  exact ⟨stepWith_of_decodeWord_some hh (fetchWord_of_le hpc) hi,
    stepWith_of_decodeWord_some hh (fetchWord_of_le hpc) hi⟩

/-- Settles O7: a word on the list does not decode, and the fault is taken on the advanced state. -/
theorem decodeFaultRecordsAndAdvances : Obligations.DecodeFaultRecordsAndAdvances := by
  intro p s w hh hw hillegal
  rw [stepWith_of_decodeWord_none hh hw (decodeWord_none_of_illegalWord hillegal),
    takeFault_of_not_halted (s := advance s) hh]
  rfl

/-- Settles O8: the fetch gives nothing, and the fault is taken with `PC` in place. -/
theorem outOfBoundsFetchHalts : Obligations.OutOfBoundsFetchHalts := by
  intro p s hh hpc
  rw [stepWith_of_fetchWord_none hh (fetchWord_of_gt hpc), takeFault_of_not_halted hh]
  rfl

/-- Settles O9: a halted step is the identity, and no tick, key or read-out writes `HALTED`. -/
theorem haltedIsAbsorbing : Obligations.HaltedIsAbsorbing := by
  intro p s hh
  refine ⟨stepWith_of_halted hh, if_pos hh, fun a t hconstruct h => ?_⟩
  cases a with
  | construct img => exact absurd rfl (hconstruct img)
  | step => cases (stepWith_of_halted hh).symm.trans h; exact hh
  | tickTimers | setKey | readFrameBuffer | readSound | readState => cases h; exact hh

/-- Settles O10: a step's fault is the one it records, and an instruction without a fault keeps the record. -/
theorem faultsArePreciseAndReported : Obligations.FaultsArePreciseAndReported := by
  intro p s t hh h
  obtain ⟨hfault, rfl⟩ | ⟨f, w, hfetch, -, hfault, rfl⟩ | ⟨w, i, hfault, -, -, -, -, heffect⟩ :=
    stepWith_not_halted_cases hh h
  · refine ⟨fun hnone => by simp [hfault] at hnone, fun r hr => ?_⟩
    cases hfault.symm.trans hr
    exact ⟨stepResponse_of_stepFault_some hh hfault, takeFault_of_not_halted hh ..⟩
  · refine ⟨fun hnone => by simp [hfault] at hnone, fun r hr => ?_⟩
    cases hfault.symm.trans hr
    refine ⟨stepResponse_of_stepFault_some hh hfault, ?_⟩
    rw [if_neg hfetch]
    exact takeFault_of_not_halted (s := advance s) hh ..
  · exact ⟨fun _ => ⟨stepResponse_of_stepFault_none hh hfault, heffect.fcode, heffect.fopc, heffect.fpc,
      heffect.halted.trans hh⟩, fun r hr => by simp [hfault] at hr⟩

/-- Settles O13: the jump undoes the advance. -/
theorem selfJumpIsAFixedPoint : Obligations.SelfJumpIsAFixedPoint := by
  intro s nnn hh hpc hw
  rw [step, stepWith_of_decodeWord_some hh hw (decodeWord_encodeWord _)]
  change Host.Outcome.next { s with pc := nnn.setWidth 16 } = _
  rw [← hpc]

/-- Settles O15: of the instructions that have an effect, two write memory. -/
theorem onlyStoresAndConstructChangeMemory : Obligations.OnlyStoresAndConstructChangeMemory := by
  intro p a s t h hmem
  obtain hconstruct | ⟨hkept, -⟩ | ⟨ha, hh, w, i, -, hw, hi, heffect⟩ := transact_display_memory_cases h
  · exact .inl hconstruct
  · exact absurd hkept hmem
  · obtain ⟨x, rfl | rfl⟩ := heffect.mem hmem
    · exact .inr ⟨ha, hh, w, x, hw, .inl hi⟩
    · exact .inr ⟨ha, hh, w, x, hw, .inr hi⟩

/-- Settles O16: of the instructions that have an effect, two write the frame buffer. -/
theorem onlyClearDrawAndConstructChangePixels : Obligations.OnlyClearDrawAndConstructChangePixels := by
  intro p a s t h hfb
  obtain hconstruct | ⟨-, hkept⟩ | ⟨ha, hh, w, i, hf, hw, hi, heffect⟩ := transact_display_memory_cases h
  · exact .inl hconstruct
  · exact absurd hkept hfb
  · obtain rfl | ⟨x, y, n, rfl⟩ := heffect.fb hfb
    · exact .inr ⟨ha, hh, hf, w, hw, .inl hi⟩
    · exact .inr ⟨ha, hh, hf, w, hw, .inr ⟨x, y, n, hi⟩⟩

end Sys2Proof
end

section
/-! PROOFS. The invariants (O11, O18 to O21): every construction meets them and every transaction keeps them. A fault
never meets an armed key wait: the word at `PC` is an `Fx0A`, and an `Fx0A` raises no fault (R39). -/

namespace Sys2Proof

open Machine Safety

section Keeps

variable {p : Config.Params} {s t : State}

/-! ## Changes the invariants do not see, and faults -/

/-- The invariants do not speak of the timers, the keys or the number of the next draw. -/
theorem inv_setEnvironment (h : Inv p s) (dt st : Byte) (key : BitVec 16) (draws : Nat) :
    Inv p { s with dt := dt, st := st, key := key, draws := draws } :=
  ⟨h.sp_le, h.pc_le, h.stack_le, h.mem_wf, h.waiting, h.halted_fault, h.fault_halted⟩

theorem code_ne_zero (f : FaultKind) : f.code ≠ 0#3 := by
  cases f <;> decide

theorem halts_of_decodeFaultHalts (hp : p.decodeFaultHalts = true) (f : FaultKind) : f.halts p = true := by
  by_cases hf : f = .decodeFault
  · exact hf ▸ hp
  · exact halts_of_ne_decodeFault p f hf

/-- Taking a fault keeps the invariants where no key wait is armed, with `PC` left anywhere in its range. -/
theorem inv_takeFault (h : Inv p s) (hkw : s.kwValid = false) {q : Word} (hq : q.toNat ≤ 0x10FE) (f : FaultKind)
    (o a : Word) : Inv p (takeFault p f o a { s with pc := q }) where
  sp_le := h.sp_le
  pc_le := hq
  stack_le := h.stack_le
  mem_wf := h.mem_wf
  waiting hk := by simp [hkw] at hk
  halted_fault _ := code_ne_zero f
  fault_halted hp _ := by simp [halts_of_decodeFaultHalts hp f]

/-! ## The launch -/

/-- The launch values meet the invariants over any canonical memory. -/
theorem inv_reset_withMem {m : Memory} (hm : Memory.wf m) : Inv p { State.reset with mem := m } where
  sp_le := Nat.zero_le _
  pc_le := (by decide : State.reset.pc.toNat ≤ 0x10FE)
  stack_le _ hk := absurd hk (Nat.not_lt_zero _)
  mem_wf := hm
  waiting hk := Bool.noConfusion hk
  halted_fault hh := Bool.noConfusion hh
  fault_halted _ hf := absurd rfl hf

theorem inv_construct (p : Config.Params) (img : List Byte) : Inv p (construct p img) := by
  unfold construct
  split
  · exact inv_reset_withMem (launchMemory_wf p img ‹_›)
  · have hlaunch : Inv p (launchState p []) := inv_reset_withMem (launchMemory_wf p [] rfl)
    exact inv_takeFault hlaunch rfl hlaunch.pc_le ..

/-! ## The call stack, `PC` and the key wait of a step -/

/-- The depth stays at most 16, and a pushed return address is the advanced `PC`. -/
theorem callStack_le_of_exec {i : Instr} (h : exec i s = .next t) (heffect : ExecEffect i s t) (hsp : s.sp.toNat ≤ 16)
    (hstack : ∀ k : Fin 16, k.val < s.sp.toNat → (s.stack[k.val]).toNat ≤ 0x1000) (hpc : s.pc.toNat ≤ 0x1000) :
    t.sp.toNat ≤ 16 ∧ ∀ k : Fin 16, k.val < t.sp.toNat → (t.stack[k.val]).toNat ≤ 0x1000 := by
  by_cases hcall : ∃ nnn, i = .call nnn
  · obtain ⟨nnn, rfl⟩ := hcall
    obtain ⟨-, rfl⟩ | ⟨hlt, rfl⟩ := execCall_cases h
    · exact ⟨hsp, hstack⟩
    · have hadd : (s.sp + 1#5).toNat = s.sp.toNat + 1 := by bv_omega
      refine ⟨hadd.trans_le hlt, fun k hk => ?_⟩
      simp only [Vector.getElem_set]
      split
      · exact hpc
      · exact hstack k (by simp only [hadd] at hk; omega)
  · have hkept : t.stack = s.stack := not_not.1 fun hne => hcall (heffect.stack hne)
    by_cases hret : i = .ret
    · subst hret
      obtain ⟨-, rfl⟩ | ⟨h0, hs, rfl⟩ := execRet_cases h
      · exact ⟨hsp, hstack⟩
      · have hsub := toNat_sp_sub_one s (by bv_omega)
        exact ⟨hs.le, fun k hk => hstack k (by simp only [hsub] at hk; omega)⟩
    · have hdepth : t.sp = s.sp := not_not.1 fun hne => (heffect.sp hne).elim hret hcall
      rw [hdepth, hkept]
      exact ⟨hsp, hstack⟩

/-- An instruction leaves `PC` in its range: the greatest target is that of a `Bnnn`, `0xFFF + 0xFF` (R26). -/
theorem pc_le_of_pcRule {i : Instr} (hrule : pcRule i s t) (hfault : instrFault i s = none) (hsp : s.sp.toNat ≤ 16)
    (hstack : ∀ k : Fin 16, k.val < s.sp.toNat → (s.stack[k.val]).toNat ≤ 0x1000) (h2 : 2 ≤ s.pc.toNat)
    (hpc : s.pc.toNat ≤ 0x1000) : t.pc.toNat ≤ 0x10FE := by
  have hskip : (s.pc + 2#16).toNat ≤ 0x10FE := by bv_omega
  have hback : (s.pc - 2#16).toNat ≤ 0x10FE := by bv_omega
  have hstay : s.pc.toNat ≤ 0x10FE := by omega
  cases i
  case jp nnn | call nnn =>
    have := nnn.isLt
    exact hrule.trans_le (by omega)
  case jpV0 nnn =>
    have := nnn.isLt
    have := (readReg s 0x0#4).isLt
    exact hrule.trans_le (by omega)
  case ret =>
    obtain ⟨hlt, hpop⟩ := hrule
    have hne : s.sp ≠ 0#5 := by
      intro h0
      simp [instrFault, h0] at hfault
    rw [hpop]
    exact (hstack ⟨_, hlt⟩ (by bv_omega)).trans (by decide)
  case seI | sneI | seR | sneR | skp | sknp =>
    simp only [pcRule] at hrule
    rw [hrule]
    split
    · exact hskip
    · exact hstay
  case ldVxK =>
    simp only [pcRule] at hrule
    rw [hrule]
    split
    · exact hback
    · exact hstay
  all_goals exact (congrArg BitVec.toNat hrule).trans_le hstay

/-- After a step, an armed latch means that an `Fx0A` was run and put `PC` back on itself. -/
theorem waitForKey_of_armed {i : Instr} {w : Word} (h : Inv p s) (hw : fetchWord s = some w)
    (hi : decodeWord w = some i) (hexec : exec i (advance s) = .next t) (heffect : ExecEffect i (advance s) t)
    (harmed : t.kwValid = true) : ∃ x, i = .ldVxK x ∧ t = waitForKey (advance s) := by
  have hwait : ∃ x, i = .ldVxK x := by
    by_cases hkept : t.kwValid = s.kwValid
    · obtain ⟨-, w', x, hw', hx⟩ := h.waiting (hkept ▸ harmed)
      cases hw.symm.trans hw'
      cases hi.symm.trans hx
      exact ⟨x, rfl⟩
    · exact heffect.latch (.inl hkept)
  obtain ⟨x, rfl⟩ := hwait
  obtain hstay | ⟨k, rfl⟩ := execLdVxK_cases hexec
  · exact ⟨x, rfl, hstay⟩
  · cases harmed

theorem fetchWord_waitForKey_advance (s : State) : fetchWord (waitForKey (advance s)) = fetchWord s := by
  simp [fetchWord]

/-- A fault meets no armed latch, because an `Fx0A` raises none. -/
theorem not_armed_of_stepFault {r : FaultReport} (h : Inv p s) (hf : stepFault s = some r) : s.kwValid = false := by
  cases hkw : s.kwValid with
  | false => rfl
  | true =>
    obtain ⟨-, w, x, hw, hx⟩ := h.waiting hkw
    rw [stepFault_of_decodeWord_some hw hx] at hf
    cases hf

/-! ## Every transaction -/

/-- An instruction that raises no fault keeps the invariants. -/
theorem inv_of_execEffect {i : Instr} {w : Word} (h : Inv p s) (hh : s.halted = false) (hw : fetchWord s = some w)
    (hi : decodeWord w = some i) (hfault : instrFault i (advance s) = none) (hexec : exec i (advance s) = .next t)
    (heffect : ExecEffect i (advance s) t) : Inv p t := by
  have hpc := (fetchWord_eq_some hw).1
  have hadv := toNat_advance_pc hpc
  have hcalls := callStack_le_of_exec hexec heffect h.sp_le h.stack_le (by omega)
  have hrun : t.halted = false := heffect.halted.trans hh
  have hcode : t.fcode = s.fcode := heffect.fcode
  exact {
    sp_le := hcalls.1
    pc_le := pc_le_of_pcRule heffect.pc hfault h.sp_le h.stack_le (by omega) (by omega)
    stack_le := hcalls.2
    mem_wf := heffect.mem_wf h.mem_wf
    waiting := fun harmed => by
      obtain ⟨x, rfl, rfl⟩ := waitForKey_of_armed h hw hi hexec heffect harmed
      exact ⟨hh, w, x, (fetchWord_waitForKey_advance s).trans hw, hi⟩
    halted_fault := fun hhalt => by simp [hrun] at hhalt
    fault_halted := fun hp hne => by
      have := h.fault_halted hp (hcode ▸ hne)
      simp [hh] at this }

/-- A step keeps the invariants, with any parameters. -/
theorem inv_stepWith (h : Inv p s) (hstep : stepWith p s = .next t) : Inv p t := by
  cases hh : s.halted with
  | true => cases (stepWith_of_halted hh).symm.trans hstep; exact h
  | false =>
    obtain ⟨hf, rfl⟩ | ⟨f, w, -, hpc, hf, rfl⟩ | ⟨w, i, -, hw, hi, hexec, hfault, heffect⟩ :=
      stepWith_not_halted_cases hh hstep
    · exact inv_takeFault h (not_armed_of_stepFault h hf) h.pc_le ..
    · have hadv := toNat_advance_pc hpc
      exact inv_takeFault h (not_armed_of_stepFault h hf) (hadv.trans_le (by omega)) ..
    · exact inv_of_execEffect h hh hw hi hfault hexec heffect

theorem inv_transact {a : Transaction} (h : Inv p s) (htrans : transact p a s = .next t) : Inv p t := by
  cases a with
  | construct img => cases htrans; exact inv_setEnvironment (inv_construct p img) ..
  | step => exact inv_stepWith h htrans
  | tickTimers | setKey => cases htrans; exact inv_setEnvironment h ..
  | readFrameBuffer | readSound | readState => cases htrans; exact h

theorem inv_of_reachable (h : Reachable p s) : Inv p s := by
  induction h with
  | launch img draws => exact inv_setEnvironment (inv_construct p img) ..
  | transact a _ htrans ih => exact inv_transact ih htrans

end Keeps

/-! ## Every transaction answers -/

/-- At most 16 calls deep, every instruction answers a next state: no arm of `exec` refuses. -/
theorem exec_answers (i : Instr) (s : State) (hsp : s.sp.toNat ≤ 16) : ∃ t, exec i s = .next t := by
  cases hf : instrFault i s with
  | some f => exact ⟨_, (exec_of_instrFault hf).1⟩
  | none =>
    cases i
    case call nnn =>
      have hlt : s.sp.toNat < 16 := by
        refine lt_of_le_of_ne hsp fun h16 => ?_
        have h16 : s.sp = 16#5 := BitVec.eq_of_toNat_eq h16
        simp [instrFault, h16] at hf
      exact ⟨_, execCall_of_lt nnn s hlt⟩
    case ret =>
      have hpos : 0 < s.sp.toNat := by
        refine Nat.pos_of_ne_zero fun h0 => ?_
        have h0 : s.sp = 0#5 := BitVec.eq_of_toNat_eq h0
        simp [instrFault, h0] at hf
      exact ⟨_, execRet_of_pos s hpos hsp⟩
    case drw x y n => exact ⟨_, execDrw_of_inBounds x y n s ((dataFault_eq_none_iff _ _).1 hf)⟩
    case ldB x => exact ⟨_, execLdB_of_inBounds x s ((dataFault_eq_none_iff _ _).1 hf)⟩
    case ldMemVx x => exact ⟨_, execLdMemVx_of_inBounds x s ((dataFault_eq_none_iff _ _).1 hf)⟩
    case ldVxMem x => exact ⟨_, execLdVxMem_of_inBounds x s ((dataFault_eq_none_iff _ _).1 hf)⟩
    case ldVxK x =>
      change ∃ t, execLdVxK x s = .next t
      unfold execLdVxK
      split
      · split <;> exact ⟨_, rfl⟩
      · exact ⟨_, rfl⟩
    all_goals exact ⟨_, rfl⟩

theorem stepWith_answers (p : Config.Params) (s : State) (hsp : s.sp.toNat ≤ 16) : ∃ t, stepWith p s = .next t := by
  cases hh : s.halted with
  | true => exact ⟨_, stepWith_of_halted hh⟩
  | false =>
    cases hw : fetchWord s with
    | none => exact ⟨_, stepWith_of_fetchWord_none hh hw⟩
    | some w =>
      cases hi : decodeWord w with
      | none => exact ⟨_, stepWith_of_decodeWord_none hh hw hi⟩
      | some i =>
        rw [stepWith_of_decodeWord_some hh hw hi]
        exact exec_answers i (advance s) hsp

/-! ## The obligations -/

/-- Settles O20: a step with the default parameters is one with some parameters. -/
theorem stepKeepsTheInvariants : Obligations.StepKeepsTheInvariants :=
  fun _ _ => inv_stepWith

/-- Settles O21: by the transaction, and then by induction on how the state was reached. -/
theorem everyReachableStateMeetsTheInvariants : Obligations.EveryReachableStateMeetsTheInvariants :=
  fun _ => ⟨fun _ _ _ => inv_transact, fun _ => inv_of_reachable⟩

/-- Settles O18: memory at reset lists nothing, which is canonical. -/
theorem resetMeetsTheInvariants : Obligations.ResetMeetsTheInvariants :=
  inv_reset_withMem ⟨List.Pairwise.nil, fun _ hc => absurd hc List.not_mem_nil⟩

/-- Settles O19: an image that fits leaves memory canonical, and one too long takes a fault on the empty launch. -/
theorem everyConstructionMeetsTheInvariants : Obligations.EveryConstructionMeetsTheInvariants :=
  inv_construct

/-- Settles O11: the depth bound is what the two stack instructions ask for; nothing else can stop a step. -/
theorem everyTransactionAnswers : Obligations.EveryTransactionAnswers := by
  intro p a s h
  cases a with
  | step => exact stepWith_answers p s h.sp_le
  | construct | tickTimers | setKey | readFrameBuffer | readSound | readState => exact ⟨_, rfl⟩

end Sys2Proof
end

section
/-! PROOFS. Call and return (O23 to O26): a call writes one stack slot, `SP` and `PC`; the return at its target reads
that slot back (R27, R28, R150, R152, R252, R253). -/

namespace Sys2Proof

open Machine Safety

/-! ## Faults and missing slots -/

/-- An instruction that raises a fault, field by field: the parameters play no part, because no instruction raises a
decode fault (R256, R257). -/
theorem exec_of_instrFault_eq {i : Instr} {s : State} {f : FaultKind} {w : Word} (hf : instrFault i s = some f)
    (hw : encodeWord i = w) :
    exec i s = .next { s with fcode := f.code, fopc := w, fpc := s.pc - 2#16, halted := true } := by
  obtain ⟨hexec, hdec, -⟩ := exec_of_instrFault hf
  rw [hexec, faultIn_next, hw, takeFault, halts_of_ne_decodeFault _ f hdec, Bool.or_true, fetchAddress]

theorem encodeWord_call_eq_or (nnn : Addr12) : encodeWord (.call nnn) = 0x2000#16 ||| nnn.setWidth 16 :=
  encodeNNN_eq_or 0x2#4 nnn

/-- R27: above depth 16 there is no slot to push to. -/
theorem execCall_of_gt (nnn : Addr12) (s : State) (h : 16 < s.sp.toNat) : execCall nnn s = .fault .noStackSlot := by
  have h16 : s.sp ≠ 16#5 := by bv_omega
  have hpush : pushReturn s = none := dif_neg (by omega)
  rw [execCall, if_neg h16, hpush]
  rfl

/-- R27: above depth 16 there is no slot to pop. -/
theorem execRet_of_gt (s : State) (h : 16 < s.sp.toNat) : execRet s = .fault .noStackSlot := by
  have h0 : s.sp ≠ 0#5 := by bv_omega
  have hpop : popReturn s = none := dif_neg (by rw [toNat_sp_sub_one s (by omega)]; omega)
  rw [execRet, if_neg h0, hpop]
  rfl

/-! ## A call and its return -/

theorem step_of_fetchWord {s : State} {i : Instr} (hh : s.halted = false) (hw : fetchWord s = some (encodeWord i)) :
    step s = exec i (advance s) :=
  stepWith_of_decodeWord_some hh hw (decodeWord_encodeWord i)

/-- A return pops the address that was pushed, and the depth is as before the push. -/
theorem execRet_of_pushed (s : State) (a : Word) (h : s.sp.toNat < 16) :
    execRet { s with stack := s.stack.set s.sp.toNat a h, sp := s.sp + 1#5 } =
      .next { s with stack := s.stack.set s.sp.toNat a h, pc := a } := by
  have hadd : (s.sp + 1#5).toNat = s.sp.toNat + 1 := by bv_omega
  rw [execRet_of_pos _ (by simp only [hadd]; omega) (by simp only [hadd]; omega)]
  simp

/-! ## The obligations -/

/-- Settles O23: below 16 the push, at 16 the overflow. -/
theorem callPushesOrOverflows : Obligations.CallPushesOrOverflows := by
  intro s nnn
  refine ⟨encodedAs_of_encodeWord_eq (encodeWord_call_eq_or nnn), fun hlt => ?push, fun h16 => ?overflow⟩
  case push =>
    refine ⟨_, execCall_of_lt nnn s hlt, rfl, by bv_omega, fun k => ?_, fun _ => rfl, rfl⟩
    rw [Vector.getElem_set]
    simp only [eq_comm]
  case overflow =>
    exact exec_of_instrFault_eq (f := .stackOverflow) (by simp [instrFault, h16]) (encodeWord_call_eq_or nnn)

/-- Settles O24: above 0 the pop, at 0 the underflow. -/
theorem returnPopsOrUnderflows : Obligations.ReturnPopsOrUnderflows := by
  intro s
  refine ⟨encodedAs_of_encodeWord_eq rfl, fun k hk => ?pop, fun h0 => ?underflow⟩
  case pop =>
    have hsub : (s.sp - 1#5).toNat = k.val := by rw [toNat_sp_sub_one s (by omega)]; omega
    exact ⟨_, execRet_of_pos s (by omega) (by omega), by simp only [hsub], hsub, fun _ => rfl, rfl⟩
  case underflow => exact exec_of_instrFault_eq (f := .stackUnderflow) (by simp [instrFault, h0]) rfl

/-- Settles O25: neither the push nor the pop finds a slot. -/
theorem noSlotBeyondSixteen : Obligations.NoSlotBeyondSixteen :=
  fun s nnn h => ⟨execCall_of_gt nnn s h, execRet_of_gt s h⟩

/-- Settles O26: the second step fetches the `00EE` at the target, and pops the slot that the first one pushed. -/
theorem callThenReturnComesBack : Obligations.CallThenReturnComesBack := by
  intro s nnn hh hsp hw hnnn hhi hlo
  refine ⟨_, { s with pc := s.pc + 2#16, stack := s.stack.set s.sp.toNat (s.pc + 2#16) hsp },
    (step_of_fetchWord hh hw).trans (execCall_of_lt nnn (advance s) hsp), ?_, rfl, rfl, rfl, rfl⟩
  have htarget : (wideAddr nnn).toNat = nnn.toNat := BitVec.toNat_setWidth_of_le (by decide)
  refine (step_of_fetchWord (i := .ret) ?running ?fetched).trans
    (execRet_of_pushed { s with pc := wideAddr nnn + 2#16 } (s.pc + 2#16) hsp)
  case running => exact hh
  case fetched =>
    rw [fetchWord_of_le (htarget.trans_le hnnn)]
    simp only [advance_mem, htarget, hhi, hlo]
    rfl

end Sys2Proof
end

section
/-! PROOFS. The ALU (O29 to O33): one register write for the bitwise operations and the random load, a result and then
the flag for the sums, the flag and then the result for the shifts (R173 to R181, R185). -/

namespace Sys2Proof

open Machine Safety

/-! ## Two register writes -/

theorem onlyRegsChange_writeReg_writeReg {xs : List RegNum} {x z : RegNum} (s : State) (b c : Byte) (hx : x ∈ xs)
    (hz : z ∈ xs) : onlyRegsChange xs s (writeReg z c (writeReg x b s)) := by
  refine ⟨fun y hy => ?_, fun _ => rfl, rfl⟩
  rw [readReg_writeReg_ne _ z y c fun e => hy (e ▸ hz), readReg_writeReg_ne s x y b fun e => hy (e ▸ hx)]

/-- The sums: the flag is written last and stands, so only for `x` other than `0xF` does the result stand too (R185). -/
theorem exists_next_of_exec_eq_writeFlag_writeReg {i : Instr} {s : State} {x : RegNum} {b : Byte} {f : Bool}
    (h : exec i s = .next (writeFlag f (writeReg x b s))) :
    ∃ t, exec i s = .next t ∧ onlyRegsChange [x, 0xF#4] s t ∧ (x ≠ 0xF#4 → readReg t x = b)
      ∧ readReg t 0xF#4 = flagByte f := by
  refine ⟨_, h, onlyRegsChange_writeReg_writeReg s b _ (by simp) (by simp [flagReg]), fun hx => ?_, ?_⟩
  · rw [readReg_writeFlag, if_neg (show x ≠ flagReg from hx), readReg_writeReg_same]
  · exact readReg_writeReg_same _ flagReg _

/-- The shifts: the flag is written first, and the shift reads `V[x]` after it (R185). -/
theorem exists_next_of_exec_eq_writeReg_writeFlag {i : Instr} {s : State} {x : RegNum} {f : Bool} (g : Byte → Byte)
    (h : exec i s = .next (writeReg x (g (readReg (writeFlag f s) x)) (writeFlag f s))) :
    ∃ t, exec i s = .next t ∧ onlyRegsChange [x, 0xF#4] s t
      ∧ (x ≠ 0xF#4 → readReg t x = g (readReg s x) ∧ readReg t 0xF#4 = flagByte f)
      ∧ (x = 0xF#4 → readReg t 0xF#4 = g (flagByte f)) := by
  refine ⟨_, h, onlyRegsChange_writeReg_writeReg s _ _ (by simp [flagReg]) (by simp), fun hx => ⟨?_, ?_⟩, fun hx => ?_⟩
  · rw [readReg_writeReg_same, readReg_writeFlag, if_neg (show x ≠ flagReg from hx)]
  · rw [readReg_writeReg_ne _ _ _ _ hx.symm]
    exact readReg_writeReg_same s flagReg _
  · subst hx
    rw [readReg_writeReg_same]
    exact congrArg g (readReg_writeReg_same s flagReg _)

/-! ## Flags and shifts as numbers -/

theorem flagByte_decide (P : Prop) [Decidable P] : flagByte (decide P) = if P then 1#8 else 0#8 := by
  simp only [flagByte, decide_eq_true_eq]

theorem toNat_sub_byte (a b : Byte) : (a - b).toNat = (a.toNat + 256 - b.toNat) % 256 := by
  bv_omega

theorem toNat_flagByte_shiftedOutLow (a : Byte) : (flagByte (shiftedOutLow a)).toNat = a.toNat % 2 := by
  rw [toNat_flagByte, shiftedOutLow, BitVec.getLsbD, Nat.testBit_zero]
  simp only [decide_eq_true_eq]
  split <;> omega

theorem toNat_flagByte_shiftedOutHigh (a : Byte) : (flagByte (shiftedOutHigh a)).toNat = a.toNat / 128 := by
  have ha := a.isLt
  rw [toNat_flagByte, shiftedOutHigh, BitVec.getLsbD, Nat.testBit_eq_decide_div_mod_eq]
  simp only [decide_eq_true_eq]
  split <;> omega

theorem toNat_shiftRight_one (a : Byte) : (a >>> 1).toNat = a.toNat / 2 := by
  rw [BitVec.toNat_ushiftRight, Nat.shiftRight_eq_div_pow, Nat.pow_one]

theorem toNat_shiftLeft_one (a : Byte) : (a <<< 1).toNat = 2 * a.toNat % 256 := by
  rw [BitVec.toNat_shiftLeft, Nat.shiftLeft_eq, Nat.pow_one, Nat.mul_comm]

/-- The flag as the operand of the shift to the left (R185). -/
theorem flagByte_shiftedOutHigh_shiftLeft (a : Byte) :
    flagByte (shiftedOutHigh a) <<< 1 = if a.toNat ≥ 0x80 then 0x02#8 else 0x00#8 := by
  have ha := a.isLt
  refine BitVec.eq_of_toNat_eq ?_
  rw [toNat_shiftLeft_one, toNat_flagByte_shiftedOutHigh]
  split
  · rw [show a.toNat / 128 = 1 by omega]; rfl
  · rw [show a.toNat / 128 = 0 by omega]; rfl

/-! ## The obligations -/

/-- Settles O29: each is one register write, of the OR, the AND or the XOR of two bytes. -/
theorem bitwiseOperationsActOnEachBit : Obligations.BitwiseOperationsActOnEachBit := by
  intro s x y
  refine ⟨⟨encodedAs_of_encodeWord_eq (encodeXYN_eq_or 0x8#4 x y 0x1#4), ?orR⟩,
    ⟨encodedAs_of_encodeWord_eq (encodeXYN_eq_or 0x8#4 x y 0x2#4), ?andR⟩,
    ⟨encodedAs_of_encodeWord_eq (encodeXYN_eq_or 0x8#4 x y 0x3#4), ?xorR⟩⟩
  case orR =>
    obtain ⟨t, hexec, hx, hframe⟩ := exists_next_of_exec_eq_writeReg (i := .orR x y) (s := s) rfl
    exact ⟨t, hexec, hframe, fun k _ => hx ▸ BitVec.getLsbD_or⟩
  case andR =>
    obtain ⟨t, hexec, hx, hframe⟩ := exists_next_of_exec_eq_writeReg (i := .andR x y) (s := s) rfl
    exact ⟨t, hexec, hframe, fun k _ => hx ▸ BitVec.getLsbD_and⟩
  case xorR =>
    obtain ⟨t, hexec, hx, hframe⟩ := exists_next_of_exec_eq_writeReg (i := .xorR x y) (s := s) rfl
    exact ⟨t, hexec, hframe, fun k _ => hx ▸ BitVec.getLsbD_xor⟩

/-- Settles O30: the 9-bit sum's low byte, and then its bit 8 as the flag. -/
theorem registerAddSetsTheCarry : Obligations.RegisterAddSetsTheCarry := by
  intro s x y
  refine ⟨encodedAs_of_encodeWord_eq (encodeXYN_eq_or 0x8#4 x y 0x4#4), ?_⟩
  obtain ⟨t, hexec, hframe, hx, hflag⟩ :=
    exists_next_of_exec_eq_writeFlag_writeReg (i := .addR x y) (s := s) rfl
  refine ⟨t, hexec, hframe, fun hne => ?_, ?_⟩
  · rw [hx hne, toNat_sumByte]
  · rw [hflag, carry_eq, flagByte_decide]

/-- Settles O31: the two differ in which register is the minuend. -/
theorem subtractionsSetTheNoBorrowFlag : Obligations.SubtractionsSetTheNoBorrowFlag := by
  intro s x y
  refine ⟨⟨encodedAs_of_encodeWord_eq (encodeXYN_eq_or 0x8#4 x y 0x5#4), ?sub⟩,
    ⟨encodedAs_of_encodeWord_eq (encodeXYN_eq_or 0x8#4 x y 0x7#4), ?subn⟩⟩
  case sub =>
    obtain ⟨t, hexec, hframe, hx, hflag⟩ := exists_next_of_exec_eq_writeFlag_writeReg (i := .sub x y) (s := s) rfl
    exact ⟨t, hexec, hframe, fun hne => hx hne ▸ toNat_sub_byte _ _, hflag.trans (flagByte_decide _)⟩
  case subn =>
    obtain ⟨t, hexec, hframe, hx, hflag⟩ := exists_next_of_exec_eq_writeFlag_writeReg (i := .subn x y) (s := s) rfl
    exact ⟨t, hexec, hframe, fun hne => hx hne ▸ toNat_sub_byte _ _, hflag.trans (flagByte_decide _)⟩

/-- Settles O32: with `x = 0xF` the byte shifted is the flag, which to the right leaves 0. -/
theorem shiftsMoveOneBitToTheFlag : Obligations.ShiftsMoveOneBitToTheFlag := by
  intro s x y
  refine ⟨⟨encodedAs_of_encodeWord_eq (encodeXYN_eq_or 0x8#4 x y 0x6#4), ?shr⟩,
    ⟨encodedAs_of_encodeWord_eq (encodeXYN_eq_or 0x8#4 x y 0xE#4), ?shl⟩⟩
  case shr =>
    obtain ⟨t, hexec, hframe, hne, heq⟩ :=
      exists_next_of_exec_eq_writeReg_writeFlag (i := .shr x y) (s := s) (· >>> 1) rfl
    refine ⟨t, hexec, hframe, fun hx => ?_, fun hx => ?_⟩
    · obtain ⟨hresult, hflag⟩ := hne hx
      exact ⟨hresult ▸ toNat_shiftRight_one _, hflag ▸ toNat_flagByte_shiftedOutLow _⟩
    · rw [heq hx]
      cases shiftedOutLow (readReg s x) <;> rfl
  case shl =>
    obtain ⟨t, hexec, hframe, hne, heq⟩ :=
      exists_next_of_exec_eq_writeReg_writeFlag (i := .shl x y) (s := s) (· <<< 1) rfl
    refine ⟨t, hexec, hframe, fun hx => ?_, fun hx => ?_⟩
    · obtain ⟨hresult, hflag⟩ := hne hx
      exact ⟨hresult ▸ toNat_shiftLeft_one _, hflag ▸ toNat_flagByte_shiftedOutHigh _⟩
    · rw [heq hx, hx]
      exact flagByte_shiftedOutHigh_shiftLeft _

/-- Settles O33: one register write of the masked draw, and the number of the next draw. -/
theorem randomLoadIsMasked : Obligations.RandomLoadIsMasked := by
  intro s x kk
  have hread : readReg (writeReg x (Config.rnd s.draws &&& kk) s) x = Config.rnd s.draws &&& kk :=
    readReg_writeReg_same ..
  refine ⟨encodedAs_of_encodeWord_eq (encodeXKK_eq_or 0xC#4 x kk), _, rfl, hread, fun k _ hk => ?_,
    (onlyRegsChange_writeReg s x _).1, fun _ => rfl, rfl⟩
  exact (congrArg (BitVec.getLsbD · k) hread).trans (by rw [BitVec.getLsbD_and, hk, Bool.and_false])

end Sys2Proof
end

section
/-! PROOFS. Index register and memory (O34 to O40): what a block stored at `I` reads as, byte by byte, and what the next
load and the next fetch make of it (R200 to R206, R70, R77). -/

namespace Sys2Proof

open Machine Safety

/-! ## The block at `I` -/

section Block

variable {s : State} {bs : List Byte}

theorem read_storeAtIndex (hm : Memory.wf s.mem) (a : Nat) :
    Memory.read (storeAtIndex bs s).mem a =
      if s.i.toNat ≤ a ∧ a < s.i.toNat + bs.length then bs.getD (a - s.i.toNat) 0#8 else Memory.read s.mem a :=
  Memory.read_writeBytes bs s.mem s.i.toNat a hm.1

theorem read_storeAtIndex_add (hm : Memory.wf s.mem) {k : Nat} (hk : k < bs.length) :
    Memory.read (storeAtIndex bs s).mem (s.i.toNat + k) = bs.getD k 0#8 := by
  rw [read_storeAtIndex hm, if_pos (by omega), Nat.add_sub_cancel_left]

theorem memoryKeptOutside_storeAtIndex (hm : Memory.wf s.mem) :
    memoryKeptOutside s.i.toNat bs.length s (storeAtIndex bs s) := by
  intro a ha
  rw [read_storeAtIndex hm, if_neg (by omega)]

theorem read_storeAtIndex_regsUpTo (hm : Memory.wf s.mem) {x y : RegNum} (hy : y.toNat ≤ x.toNat) :
    Memory.read (storeAtIndex (regsUpTo s x) s).mem (s.i.toNat + y.toNat) = readReg s y := by
  rw [read_storeAtIndex_add hm (by rw [length_regsUpTo]; omega), getD_regsUpTo s x y hy]

end Block

theorem dataInBounds_succ {base : Word} {k : Nat} (h : base.toNat + k ≤ 0xFFF) : dataInBounds base (k + 1) = true :=
  (dataInBounds_iff base (k + 1)).2 (.inr h)

/-- An instruction that checks a block which does not fit below `0x1000` records the access (R70, R255). -/
theorem exec_of_outOfBounds {i : Instr} {s : State} {w : Word} (count : Nat)
    (hcheck : instrFault i s = dataFault s.i count) (hw : encodeWord i = w) (h0 : 0 < count)
    (h : 0x1000 < s.i.toNat + count) :
    exec i s = .next { s with fcode := 5#3, fopc := w, fpc := s.pc - 2#16, halted := true } := by
  have hout : ¬ dataInBounds s.i count = true := by
    rw [dataInBounds_iff]
    omega
  exact exec_of_instrFault_eq (f := .outOfBoundsAccess) (hcheck.trans (if_neg hout)) hw

/-! ## Operands as numbers -/

theorem toNat_wideByte (b : Byte) : (wideByte b).toNat = b.toNat := BitVec.toNat_setWidth_of_le (by decide)

theorem toNat_lowNibble (b : Byte) : (lowNibble b).toNat = b.toNat % 16 := by
  simp [lowNibble]

theorem toNat_glyphAddress (d : BitVec 4) : (glyphAddress d).toNat = 5 * d.toNat := by
  unfold glyphAddress
  bv_omega

/-- The encoding of a draw as the statements write it. -/
theorem encodeWord_drw_eq_or (x y : RegNum) (n : BitVec 4) :
    encodeWord (.drw x y n) = 0xD000#16 ||| atX x ||| atY y ||| n.setWidth 16 := by
  change encodeXYN 0xD#4 x y n = _
  rw [encodeXYN_eq_or, atX, atY]
  change 0xD000#16 ||| _ ||| _ ||| _ = _
  ac_rfl

/-! ## The obligations -/

/-- Settles O34: each is one write of `I`. -/
theorem indexRegisterWrites : Obligations.IndexRegisterWrites := by
  intro s x nnn
  refine ⟨⟨encodedAs_of_encodeWord_eq (encodeNNN_eq_or 0xA#4 nnn), rfl⟩,
    ⟨encodedAs_of_encodeWord_eq (encodeXKK_eq_or_atX 0xF#4 x 0x1E#8), _, rfl, ?add, rfl⟩,
    ⟨encodedAs_of_encodeWord_eq (encodeXKK_eq_or_atX 0xF#4 x 0x29#8), _, rfl, ?font, rfl⟩⟩
  case add => rw [writeIndex_i, BitVec.toNat_add, toNat_wideByte]
  case font => rw [writeIndex_i, toNat_glyphAddress, toNat_lowNibble]

/-- Settles O35: the three digits are the block stored at `I`. -/
theorem decimalStoreWritesThreeDigits : Obligations.DecimalStoreWritesThreeDigits := by
  intro s x
  refine ⟨encodedAs_of_encodeWord_eq (encodeXKK_eq_or_atX 0xF#4 x 0x33#8), fun hm hi => ?_⟩
  have hdigit {k : Nat} (hk : k < 3) := read_storeAtIndex_add (bs := decimalDigits (readReg s x)) hm hk
  refine ⟨_, execLdB_of_inBounds x s (dataInBounds_succ hi), ?hundreds, ?tens, ?units,
    memoryKeptOutside_storeAtIndex (bs := decimalDigits (readReg s x)) hm, rfl⟩
  case hundreds => exact (congrArg BitVec.toNat (hdigit (k := 0) (by decide))).trans (BitVec.toNat_udiv ..)
  case tens => exact (congrArg BitVec.toNat (hdigit (k := 1) (by decide))).trans (by simp [decimalDigits])
  case units => exact (congrArg BitVec.toNat (hdigit (k := 2) (by decide))).trans (BitVec.toNat_umod ..)

/-- Settles O36: the registers are the block stored at `I`. -/
theorem registerStoreWritesTheBlock : Obligations.RegisterStoreWritesTheBlock := by
  intro s x
  refine ⟨encodedAs_of_encodeWord_eq (encodeXKK_eq_or_atX 0xF#4 x 0x55#8), fun hm hi => ?_⟩
  refine ⟨_, execLdMemVx_of_inBounds x s (dataInBounds_succ hi), fun y hy => read_storeAtIndex_regsUpTo hm hy, ?_, rfl⟩
  exact length_regsUpTo s x ▸ memoryKeptOutside_storeAtIndex hm

/-- Settles O37: the load reads the block at `I` into the registers up to `V[x]`. -/
theorem registerLoadReadsTheBlock : Obligations.RegisterLoadReadsTheBlock := by
  intro s x
  refine ⟨encodedAs_of_encodeWord_eq (encodeXKK_eq_or_atX 0xF#4 x 0x65#8), fun hi => ?_⟩
  exact ⟨_, execLdVxMem_of_inBounds x s (dataInBounds_succ hi), readReg_loadRegs s x, fun _ => rfl, rfl⟩

/-- Settles O38: the check of each of the four fails. -/
theorem outOfBoundsAccessChangesNothingElse : Obligations.OutOfBoundsAccessChangesNothingElse := by
  intro s x y n
  refine ⟨fun h => ?ldB, fun h => ?ldMemVx, fun h => ?ldVxMem, fun h0 h => ?drw⟩
  case ldB => exact exec_of_outOfBounds 3 rfl (encodeXKK_eq_or_atX 0xF#4 x 0x33#8) (by omega) (by omega)
  case ldMemVx =>
    exact exec_of_outOfBounds (x.toNat + 1) rfl (encodeXKK_eq_or_atX 0xF#4 x 0x55#8) (by omega) (by omega)
  case ldVxMem =>
    exact exec_of_outOfBounds (x.toNat + 1) rfl (encodeXKK_eq_or_atX 0xF#4 x 0x65#8) (by omega) (by omega)
  case drw => exact exec_of_outOfBounds n.toNat rfl (encodeWord_drw_eq_or x y n) h0 h

/-- Settles O39: the load checks the same bound and reads the bytes that were stored. -/
theorem storeThenLoadRestoresRegisters : Obligations.StoreThenLoadRestoresRegisters := by
  intro s t x v hm hi h
  have hb := dataInBounds_succ hi
  cases (execLdMemVx_of_inBounds x s hb).symm.trans h
  refine ⟨_, execLdVxMem_of_inBounds x _ hb, fun y hy => ?_⟩
  rw [readReg_loadRegs, if_pos hy]
  exact read_storeAtIndex_regsUpTo hm hy

/-- Settles O40: the two bytes fetched are the first two stored. -/
theorem storeIsSeenByTheNextFetch : Obligations.StoreIsSeenByTheNextFetch := by
  intro s t x hm hx hi h
  cases (execLdMemVx_of_inBounds x s (dataInBounds_succ hi)).symm.trans h
  have hread {y : RegNum} (hy : y.toNat ≤ x.toNat) := read_storeAtIndex_regsUpTo hm hy
  have hpc : s.i.toNat ≤ 0xFFE := by omega
  rw [fetchWord_of_le hpc]
  exact congrArg some (congrArg₂ joinBytes (hread (y := 0x0#4) (Nat.zero_le _)) (hread (y := 0x1#4) hx))

end Sys2Proof
end

section
/-! PROOFS. Drawing (O42 to O44): the pixels under the sprite are the points of `drawSprite_spec`, and the claims about
two draws and about a draw after a clear follow from what one draw does (R221, R224). -/

namespace Sys2Proof

open Machine Safety

/-! ## The pixels under the sprite -/

/-- The sprite of the statements is the list of points that drawing toggles. -/
theorem spriteCovers_iff (s : State) (x y : RegNum) (n : BitVec 4) (px : Column) (py : Row) :
    spriteCovers s x y n px py ↔
      (px, py) ∈ spritePoints (readReg s x) (readReg s y) 0 (bytesAtIndex s n.toNat) := by
  rw [mem_spritePoints, spriteCovers, bytesAtIndex, Memory.length_readBytes]
  refine exists_congr fun row => and_congr_right fun hrow => ?_
  rw [Memory.getD_readBytes _ _ _ _ hrow, Nat.zero_add]

/-- The sprite is the same in two states that agree on the coordinates, on `I` and on memory. -/
theorem spriteCovers_congr {s t : State} {x y : RegNum} (hx : readReg t x = readReg s x)
    (hy : readReg t y = readReg s y) (hi : t.i = s.i) (hm : memoryKept s t) (n : BitVec 4) (px : Column) (py : Row) :
    spriteCovers t x y n px py ↔ spriteCovers s x y n px py := by
  simp only [spriteCovers, hx, hy, hi, hm _]

theorem drawInBounds {s : State} {n : BitVec 4} (h : n.toNat = 0 ∨ s.i.toNat + n.toNat ≤ 0x1000) :
    dataInBounds s.i n.toNat = true :=
  (dataInBounds_iff _ _).2 (h.imp_right fun hle => by omega)

/-! ## The obligations -/

/-- Settles O42: `drawSprite_spec` on the sprite's points, with the flag written after the buffer. -/
theorem drawTogglesThePixelsUnderTheSprite : Obligations.DrawTogglesThePixelsUnderTheSprite := by
  intro s x y n
  refine ⟨encodedAs_of_encodeWord_eq (encodeWord_drw_eq_or x y n), fun hb => ?_⟩
  have hrows : (bytesAtIndex s n.toNat).length ≤ 15 := by
    rw [bytesAtIndex, Memory.length_readBytes]
    omega
  obtain ⟨hpixel, hcollision⟩ := drawSprite_spec (readReg s x) (readReg s y) _ s.fb hrows
  have hflag : (∃ px py, spriteCovers s x y n px py ∧ pixel s.fb px py = true) ↔
      (drawSprite (readReg s x) (readReg s y) (bytesAtIndex s n.toNat) s.fb).collision = true := by
    rw [hcollision, Prod.exists]
    simp only [spriteCovers_iff]
  refine ⟨_, execDrw_of_inBounds x y n s (drawInBounds hb), fun px py hc => ?_, fun px py hc => ?_, fun hon => ?_,
    fun hoff => ?_, (onlyRegsChange_writeReg _ flagReg _).1, fun _ => rfl, rfl⟩
  · rw [writeFlag_fb, hpixel, decide_eq_true ((spriteCovers_iff ..).1 hc), Bool.xor_true]
  · rw [writeFlag_fb, hpixel, decide_eq_false fun hmem => hc ((spriteCovers_iff ..).2 hmem), Bool.xor_false]
  · rw [hflag.1 hon]
    exact readReg_writeReg_same ..
  · rw [Bool.eq_false_iff.2 (mt hflag.2 hoff)]
    exact readReg_writeReg_same ..

/-- Settles O43: the second draw covers the same pixels, the flag being neither coordinate, and toggles them back. -/
theorem drawingTwiceRestoresTheBuffer : Obligations.DrawingTwiceRestoresTheBuffer := by
  intro s t x y n hx hy hb h
  obtain ⟨-, hdraw⟩ := drawTogglesThePixelsUnderTheSprite s x y n
  obtain ⟨t', ht, hon, hoff, -, -, hregs, hmem, hframe⟩ := hdraw hb
  obtain rfl : t = t' := by
    cases h.symm.trans ht
    rfl
  have hi : t.i = s.i := hframe ▸ rfl
  have hcovers := spriteCovers_congr (hregs x (by simpa using hx)) (hregs y (by simpa using hy)) hi hmem n
  obtain ⟨-, hredraw⟩ := drawTogglesThePixelsUnderTheSprite t x y n
  obtain ⟨u, hu, hon', hoff', hset, hclear, -, -, -⟩ := hredraw (hi ▸ hb)
  simp only [hcovers] at hon' hoff' hset hclear
  refine ⟨u, hu, frameBuffer_ext _ _ fun px py => ?_, fun hflag => ?_, hset⟩
  · by_cases hc : spriteCovers s x y n px py
    · rw [hon' px py hc, hon px py hc, Bool.not_not]
    · rw [hoff' px py hc, hoff px py hc]
  · by_contra hnone
    exact absurd (hflag.symm.trans (hclear hnone)) (by decide)

/-- Settles O44: on a buffer with every pixel off, no pixel collides and a toggled pixel is on. -/
theorem drawAfterClearIsTheSprite : Obligations.DrawAfterClearIsTheSprite := by
  intro s t x y n hb h
  cases (exec_cls s).symm.trans h
  obtain ⟨-, hdraw⟩ := drawTogglesThePixelsUnderTheSprite { s with fb := clearBuffer } x y n
  obtain ⟨u, hu, hon, hoff, -, hclear, -, -, -⟩ := hdraw hb
  refine ⟨u, hu, hclear ?_, fun px py => ⟨fun hpx => ?_, fun hc => ?_⟩⟩
  · rintro ⟨px, py, -, hpx⟩
    simp at hpx
  · by_contra hc
    rw [hoff px py hc] at hpx
    simp at hpx
  · rw [hon px py hc, pixel_clearBuffer, Bool.not_false]

end Sys2Proof
end

section
/-! PROOFS. Keys (O45, O46): the skips test one key of the sixteen, and the key wait completes on the least key that is
down now and was up at the last sample (R230 to R232). -/

namespace Sys2Proof

open Machine Safety

/-! ## The least key -/

/-- A bit of the keys that went down since the last sample. -/
theorem getLsbD_newly_iff (s : State) (k : KeyNum) :
    (s.key &&& ~~~s.kwPrev).getLsbD k.toNat = true ↔ keyWentDown s k := by
  have hk := k.isLt
  simp [keyWentDown, hk]

theorem leastKey_eq_none {newly : BitVec 16} (h : ∀ k : KeyNum, ¬ newly.getLsbD k.toNat = true) :
    leastKey newly = none :=
  List.find?_eq_none.2 fun k _ => h k

theorem leastKey_eq_some {newly : BitVec 16} {k : KeyNum} (hk : newly.getLsbD k.toNat = true)
    (hleast : ∀ j : KeyNum, j.toNat < k.toNat → ¬ newly.getLsbD j.toNat = true) : leastKey newly = some k := by
  have hget : ∀ j : Fin 16,
      ([0, 1, 2, 3, 4, 5, 6, 7, 8, 9, 10, 11, 12, 13, 14, 15] : List KeyNum)[j.val] = BitVec.ofFin j := by decide
  refine List.find?_eq_some_iff_getElem.2 ⟨hk, k.toNat, k.isLt, hget ⟨k.toNat, k.isLt⟩, fun j hj => ?_⟩
  have hj16 : j < 16 := hj.trans k.isLt
  rw [hget ⟨j, hj16⟩]
  simpa using hleast (BitVec.ofFin ⟨j, hj16⟩) hj

/-! ## The obligations -/

/-- Settles O45: each is `skipIf` on the level of the key that the low nibble names. -/
theorem skipsSampleTheKey : Obligations.SkipsSampleTheKey := by
  intro s x
  have hkey : keyDown s (lowNibble (readReg s x)) = s.key.getLsbD ((readReg s x).toNat % 16) := by
    rw [keyDown, toNat_lowNibble]
  refine ⟨⟨encodedAs_of_encodeWord_eq (encodeXKK_eq_or_atX 0xE#4 x 0x9E#8), ?skp⟩,
    ⟨encodedAs_of_encodeWord_eq (encodeXKK_eq_or_atX 0xE#4 x 0xA1#8), ?sknp⟩⟩
  case skp =>
    change Host.Outcome.next (skipIf (keyDown s (lowNibble (readReg s x))) s) = _
    rw [hkey, skipIf_eq]
  case sknp =>
    change Host.Outcome.next (skipIf (!keyDown s (lowNibble (readReg s x))) s) = _
    rw [hkey, skipIf_eq]
    simp only [Bool.not_eq_true', ← Bool.not_eq_true, ite_not]

/-- Settles O46: the latch decides whether the keys are compared, and the comparison whether the wait completes. -/
theorem keyWaitArmsStaysAndCompletes : Obligations.KeyWaitArmsStaysAndCompletes := by
  intro s x
  refine ⟨encodedAs_of_encodeWord_eq (encodeXKK_eq_or_atX 0xF#4 x 0x0A#8), fun hoff => ?arms, fun hon hnone => ?stays,
    fun hon k hk hleast => ?completes⟩
  case arms =>
    change execLdVxK x s = _
    rw [execLdVxK, hoff]
    rfl
  case stays =>
    have hkey : leastKey (s.key &&& ~~~s.kwPrev) = none :=
      leastKey_eq_none fun k => mt (getLsbD_newly_iff s k).1 (hnone k)
    change execLdVxK x s = _
    rw [execLdVxK, if_pos hon, hkey, waitForKey, ← hon]
    rfl
  case completes =>
    have hkey : leastKey (s.key &&& ~~~s.kwPrev) = some k :=
      leastKey_eq_some ((getLsbD_newly_iff s k).2 hk) fun j hj => mt (getLsbD_newly_iff s j).1 (hleast j hj)
    have hexec : exec (.ldVxK x) s = .next (acceptKey x k s) := by
      change execLdVxK x s = _
      rw [execLdVxK, if_pos hon, hkey]
    refine ⟨_, hexec, ?_, (onlyRegsChange_writeReg s x _).1, fun _ => rfl, rfl⟩
    have hread : readReg (acceptKey x k s) x = k.setWidth 8 := readReg_writeReg_same s x _
    rw [hread, BitVec.toNat_setWidth_of_le (by decide)]

end Sys2Proof
end

section
/-! PROOFS. Transactions and reset (O48 to O53): a tick, a key and the read-outs, and the launch state, whose memory is
that of `read_launchMemory` (R131 to R134, R268, R291, R292). -/

namespace Sys2Proof

open Machine Safety

/-! ## The launch -/

theorem image_eq_false {img : List Byte} (h : 3584 < img.length) : WellFormed.image img = false :=
  decide_eq_false (Nat.not_le.2 h)

theorem construct_of_fits {p : Config.Params} {img : List Byte} (h : img.length ≤ 3584) :
    construct p img = launchState p img :=
  if_pos (decide_eq_true h)

theorem construct_of_oversized {p : Config.Params} {img : List Byte} (h : 3584 < img.length) :
    construct p img = takeFault p .capacityError 0x0000#16 0x0000#16 (launchState p []) := by
  rw [construct, image_eq_false h]
  rfl

/-- Storing what an unlisted address already reads as lists nothing. -/
theorem writeBytes_initial (bs : List Byte) : ∀ a : Nat, (∀ k (hk : k < bs.length), bs[k] = Memory.initial (a + k)) →
    Memory.writeBytes [] a bs = [] := by
  induction bs with
  | nil => exact fun _ _ => rfl
  | cons b bs ih =>
    intro a h
    have hb : b = Memory.initial a := h 0 (by simp)
    have hwrite : Memory.write [] a b = [] := if_pos hb
    rw [Memory.writeBytes, hwrite]
    refine ih (a + 1) fun k hk => ?_
    have hnext : bs[k] = Memory.initial (a + (k + 1)) := h (k + 1) (by simpa using hk)
    exact hnext.trans (congrArg Memory.initial (by omega))

/-- The launch of no image with the default font is the reset state. -/
theorem construct_nil : construct defaultParams [] = State.reset := by
  have hfont : Memory.writeBytes [] 0 fontBytes = [] := by
    refine writeBytes_initial fontBytes 0 fun k hk => ?_
    rw [Memory.initial, Nat.zero_add, List.getD_eq_getElem _ _ hk]
  have hmem : launchMemory defaultParams [] = [] := hfont
  rw [construct_of_fits (Nat.zero_le _), launchState, hmem]
  rfl

/-- Memory above the program origin is zero where no image byte stands. -/
theorem read_launchMemory_of_zero (p : Config.Params) {img : List Byte} {a : Nat} (h80 : 80 ≤ a)
    (himg : ¬ (0x200 ≤ a ∧ a < 0x200 + img.length)) : Memory.read (launchMemory p img) a = 0x00#8 := by
  rw [read_launchMemory, if_neg himg, dif_neg (by omega)]

theorem read_launchMemory_font (p : Config.Params) (img : List Byte) (k : Fin 80) :
    Memory.read (launchMemory p img) k.val = p.font[k.val] := by
  rw [read_launchMemory, if_neg (by omega), dif_pos k.isLt]

theorem read_launchMemory_image (p : Config.Params) {img : List Byte} {k : Nat} {b : Byte} (h : img[k]? = some b) :
    Memory.read (launchMemory p img) (0x200 + k) = b := by
  obtain ⟨hk, rfl⟩ := List.getElem?_eq_some_iff.1 h
  rw [read_launchMemory, if_pos (by omega), Nat.add_sub_cancel_left, List.getD_eq_getElem _ _ hk]

/-! ## The read-outs -/

/-- The flat view is row-major: 64 columns a row. -/
theorem flatFrameBuffer_getElem? (s : State) (x : Column) (y : Row) :
    (flatFrameBuffer s)[64 * y.toNat + x.toNat]? = some (pixel s.fb x y) := by
  have hx := x.isLt
  have hy := y.isLt
  have hcol : (64 * y.toNat + x.toNat) % 64 = x.toNat := by omega
  have hrow : (64 * y.toNat + x.toNat) / 64 = y.toNat := by omega
  rw [flatFrameBuffer, List.getElem?_map, List.getElem?_range (by omega), Option.map_some, hcol, hrow,
    BitVec.ofNat_toNat, BitVec.ofNat_toNat, BitVec.setWidth_eq, BitVec.setWidth_eq]

theorem soundOn_iff (s : State) : soundOn s = true ↔ 0 < s.st.toNat := by
  rw [soundOn, bne_iff_ne, BitVec.toNat_ne, Nat.pos_iff_ne_zero]
  rfl

/-! ## The obligations -/

/-- Settles O48: one tick of each timer. -/
theorem tickLowersTheTimers : Obligations.TickLowersTheTimers :=
  fun _ s => ⟨_, rfl, toNat_tickDown s.dt, toNat_tickDown s.st, rfl⟩

/-- Settles O49: one bit of the key state. -/
theorem setKeySetsOneKey : Obligations.SetKeySetsOneKey :=
  fun _ s k pressed => ⟨_, rfl, fun j => keyDown_setKey k j pressed s, rfl⟩

/-- Settles O50: the read-outs are the identity on the state. -/
theorem readOutsChangeNothing : Obligations.ReadOutsChangeNothing := by
  intro p s x y
  refine ⟨⟨rfl, rfl⟩, ⟨rfl, ?_⟩, ⟨rfl, rfl⟩, flatFrameBuffer_getElem? s x y⟩
  rw [← soundOn_iff, response, Response.bit.injEq]

/-- Settles O51: the launch state, whose memory is read in its four ranges. -/
theorem constructBuildsTheLaunchState : Obligations.ConstructBuildsTheLaunchState := by
  intro p img s himg
  refine ⟨if_pos (decide_eq_true himg), { launchState p img with draws := s.draws }, ?_, read_launchMemory_font p img,
    fun a h80 h200 => read_launchMemory_of_zero p h80 (by omega), fun k b => read_launchMemory_image p,
    fun a hend _ => read_launchMemory_of_zero p (by omega) (by omega), rfl⟩
  rw [transact, construct_of_fits himg]

/-- Settles O52: the launch state of no image with the capacity error, and the halted step that reports it. -/
theorem oversizedImageNeverStarts : Obligations.OversizedImageNeverStarts := by
  intro p img s himg
  have hnext : transact p (.construct img) s =
      .next { takeFault p .capacityError 0x0000#16 0x0000#16 (launchState p []) with draws := s.draws } := by
    rw [transact, construct_of_oversized himg]
  have hresponse : response (.construct img) s = .capacityError := by
    rw [response, image_eq_false himg]
    rfl
  exact ⟨hresponse, _, hnext, rfl, rfl, rfl, rfl,
    fun a h200 _ => read_launchMemory_of_zero p (by omega) (by simp), rfl, rfl⟩

/-- Settles O53: `construct_nil`, and the values of the reset state, whose memory lists nothing. -/
theorem resetIsTheLaunchOfNoImage : Obligations.ResetIsTheLaunchOfNoImage := by
  refine ⟨construct_nil, rfl, rfl, fun k => ?stack, rfl, rfl, rfl, rfl, rfl, rfl, fun x => ?regs, rfl, rfl, rfl,
    pixel_clearBuffer, fun k => ?keys, fun d r => ?font, fun a h80 _ => Memory.initial_of_le a h80, rfl⟩
  case stack => exact Vector.getElem_replicate ..
  case regs => exact Vector.getElem_replicate ..
  case keys => exact BitVec.getLsbD_zero
  case font => exact List.getD_eq_getElem?_getD ..

end Sys2Proof
end
